-- ==== Sys2Proof/Word.lean ====
section
/-! DEFINITION. The words of KSX: bytes, buffer addresses, 32-bit command words and registers, and the two
sequence-of-bytes types of the datapath (`00_scope.md` R7: a V128 is a sequence of exactly 16 bytes; its views as four
words, two halves, and as an AES state). Every operation on them stands in `Machine/Vec.lean`. -/

namespace Sys2Proof

/-- An unsigned 8-bit integer (R7). -/
abbrev Byte := BitVec 8

/-- A buffer address as a command word carries it: 12 bits (R6 `AW`, R55). -/
abbrev Addr := BitVec 12

/-- A command word (R6 `CMD_BITS`, R50) or a host-visible register (R6 `REG_BITS`, R11 to R13): 32 bits. -/
abbrev Word := BitVec 32

/-- A word of a V128: 4 bytes, `b0` at the lowest address (R7, R31). It is never treated as a number (R31). -/
structure KeyWord where
  b0 : Byte
  b1 : Byte
  b2 : Byte
  b3 : Byte
  deriving DecidableEq, Repr, Inhabited

/-- A half of a V128: 8 bytes, that is two words (R7, R125). -/
structure Half where
  w0 : KeyWord
  w1 : KeyWord
  deriving DecidableEq, Repr, Inhabited

/-- A 128-bit vector: 16 bytes in four words, `w0` at the lowest addresses (R7). In the AES state view `w<c>` is
column `c` and its byte `b<r>` is row `r`. -/
structure V128 where
  w0 : KeyWord
  w1 : KeyWord
  w2 : KeyWord
  w3 : KeyWord
  deriving DecidableEq, Repr, Inhabited

end Sys2Proof
end

