-- ==== Sys2Proof/Config.lean ====
section
/-! DEFINITION. What an instance of KSX fixes (`00_scope.md` R6) and the free values: what the spec leaves
unspecified. A free value is an opaque constant, so no proof can see what it is. -/

namespace Sys2Proof

/-- The parameters of a KSX instance (R6) that are not fixed by the source. The constants of R6 that are the same for
every instance (rounds, key bytes, schedule lengths) are functions of the key size (`Machine/Operands.lean`), and the
widths `AW`, `CMD_BITS`, `REG_BITS` are the types of `Word.lean`. -/
structure Config where
  /-- `MEM_BYTES`: size of the buffer memory, at most 4096. -/
  memBytes  : Nat
  /-- `HAS_ASSIST`: the assisted expansion path is present. -/
  hasAssist : Bool
  /-- `HAS_EMUL`: the emulated expansion path is present. -/
  hasEmul   : Bool
  deriving DecidableEq, Repr

/-- The instance of R6's "value" column, "the value this spec's examples and test vectors use". DESIGN CHOICE (log 2):
`State.reset` is this instance; the statements range over every instance. -/
def Config.example4096 : Config := { memBytes := 4096, hasAssist := true, hasEmul := true }

/-- The byte that address `a` of `MEM` holds after the `n`-th reset, before anything has written it (R20, R191:
"unspecified: any value, independently per byte"). Free value (log 3). -/
opaque Config.resetByte (n : Nat) (a : Nat) : Byte

/-- The `n`-th unspecified 128-bit value: what a working register holds where the spec does not say (R17, R20;
`93_implementation_defined.md` U10). Free value (log 4). -/
opaque Config.freeV128 (n : Nat) : V128

end Sys2Proof
end

