-- ==== Sys2Proof/Syntax.lean ====
section
/-! DEFINITION. The commands of KSX (`30_encoding.md` R52, the twelve rows of `opcode_table.json`), the causes a command
can be refused for (`60_exceptions.md` R171), the moves of the host (`70_reset_and_hazards.md` R201) and the lines of the
assembler's text (`30_encoding.md` R59, R60). -/

namespace Sys2Proof

/-- The key-size selector: the closed set {128, 192, 256} (R24). -/
inductive KeySize where
  | k128
  | k192
  | k256
  deriving DecidableEq, Repr

/-- The expansion path of an EXPAND (R54): `p = 0` assisted, `p = 1` emulated. -/
inductive Path where
  | assisted
  | emulated
  deriving DecidableEq, Repr

/-- One constructor per row of the opcode table. Every value of the arguments has exactly one word (R51, R55: "Every
address 0 to 4095 can be encoded"), so no term of this type is ill-formed. -/
inductive Instr where
  /-- `EXPAND.128[.A|.E] dst, src` (R110). -/
  | expand128 (dst src : Addr) (p : Path)
  /-- `EXPAND.192[.A|.E] dst, src` (R120). -/
  | expand192 (dst src : Addr) (p : Path)
  /-- `EXPAND.256[.A|.E] dst, src` (R135). -/
  | expand256 (dst src : Addr) (p : Path)
  /-- `TODEC.128 dst, src` (R160). -/
  | todec128 (dst src : Addr)
  /-- `TODEC.192 dst, src` (R160). -/
  | todec192 (dst src : Addr)
  /-- `TODEC.256 dst, src` (R160). -/
  | todec256 (dst src : Addr)
  /-- `ROUNDS.128` (R152). -/
  | rounds128
  /-- `ROUNDS.192` (R152). -/
  | rounds192
  /-- `ROUNDS.256` (R152). -/
  | rounds256
  /-- `KEYBYTES.128` (R153). -/
  | keybytes128
  /-- `KEYBYTES.192` (R153). -/
  | keybytes192
  /-- `KEYBYTES.256` (R153). -/
  | keybytes256
  deriving DecidableEq, Repr

/-- The causes of a fault (R171), in their priority order (R178). -/
inductive Cause where
  /-- The word matches no row for a reason other than `sel = 3` (R172). -/
  | illegalCmd
  /-- The selector is outside the enumerated set, `sel = 3` (R173). -/
  | badSelector
  /-- EXPAND on a path this instance does not have (R174). -/
  | pathUnavailable
  /-- A footprint does not fit in `MEM` (R175). -/
  | range
  /-- Source and destination footprints share a byte (R176). -/
  | overlap
  deriving DecidableEq, Repr

/-- The registers the host can read (R11 to R13, R201). -/
inductive HostReg where
  | res
  | status
  | fcmd
  deriving DecidableEq, Repr

/-- The host's moves, "the whole of what it can do to KSX" (R201). -/
inductive HostMove where
  /-- `HOST.RESET` (R190). -/
  | reset
  /-- `HOST.WRITE a, bytes`. -/
  | write (a : Nat) (bytes : List Byte)
  /-- `HOST.READ a, n`. -/
  | read (a n : Nat)
  /-- `HOST.READREG r`. -/
  | readReg (r : HostReg)
  /-- Issue the command word `w`. -/
  | issue (w : Word)
  deriving DecidableEq, Repr

/-- One line of assembler text (R59) without its comment: a command with its operands as numbers, the pseudo-instruction
`EXPAND dst, src, size` (R60), or a raw `.word`. -/
inductive AsmLine where
  /-- `EXPAND.<size>[.A|.E] <dst>, <src>`; `none` is the form without a suffix. -/
  | expand (k : KeySize) (suffix : Option Path) (dst src : Nat)
  /-- `TODEC.<size> <dst>, <src>`. -/
  | todec (k : KeySize) (dst src : Nat)
  /-- `ROUNDS.<size>`. -/
  | rounds (k : KeySize)
  /-- `KEYBYTES.<size>`. -/
  | keybytes (k : KeySize)
  /-- The pseudo-instruction `EXPAND <dst>, <src>, <size>`. -/
  | expandPseudo (dst src : Nat) (k : KeySize)
  /-- `.word 0x...`. -/
  | word (n : Nat)
  deriving DecidableEq, Repr

end Sys2Proof
end

