-- ==== Sys2Proof/WellFormed.lean ====
section
/-! DEFINITION. Which terms the spec admits: the words that are commands (`30_encoding.md` R52, by the table of masks
and matches, which is independent of the decoder's tests), the assembler lines whose numbers can be encoded (R59), the
instances that exist (`00_scope.md` R6) and the host moves that can be expressed (`70_reset_and_hazards.md` R201). An
`Instr` has no ill-formed term: the widths of its operands are in its types. -/

namespace Sys2Proof

/-- One row of the second table of R52. -/
structure OpcodeRow where
  mnemonic  : String
  mask      : Word
  pattern   : Word
  deriving DecidableEq, Repr

/-- The rows of R52 (`opcode_table.json`'s "mask" and "match"). -/
def opcodeRows : List OpcodeRow :=
  [ { mnemonic := "EXPAND.128", mask := 0x000000BF#32, pattern := 0x00000001#32 }
  , { mnemonic := "EXPAND.192", mask := 0x000000BF#32, pattern := 0x00000011#32 }
  , { mnemonic := "EXPAND.256", mask := 0x000000BF#32, pattern := 0x00000021#32 }
  , { mnemonic := "TODEC.128", mask := 0x000000FF#32, pattern := 0x00000002#32 }
  , { mnemonic := "TODEC.192", mask := 0x000000FF#32, pattern := 0x00000012#32 }
  , { mnemonic := "TODEC.256", mask := 0x000000FF#32, pattern := 0x00000022#32 }
  , { mnemonic := "ROUNDS.128", mask := 0xFFFFFFFF#32, pattern := 0x00000003#32 }
  , { mnemonic := "ROUNDS.192", mask := 0xFFFFFFFF#32, pattern := 0x00000013#32 }
  , { mnemonic := "ROUNDS.256", mask := 0xFFFFFFFF#32, pattern := 0x00000023#32 }
  , { mnemonic := "KEYBYTES.128", mask := 0xFFFFFFFF#32, pattern := 0x00000004#32 }
  , { mnemonic := "KEYBYTES.192", mask := 0xFFFFFFFF#32, pattern := 0x00000014#32 }
  , { mnemonic := "KEYBYTES.256", mask := 0xFFFFFFFF#32, pattern := 0x00000024#32 } ]

/-- "A word `w` is the command of a row when `w & mask = match`" (R52). -/
def OpcodeRow.matchesWord (r : OpcodeRow) (w : Word) : Bool := (w &&& r.mask) == r.pattern

/-- The row each constructor stands for. -/
def Instr.row : Instr → OpcodeRow
  | .expand128 _ _ _ => { mnemonic := "EXPAND.128", mask := 0x000000BF#32, pattern := 0x00000001#32 }
  | .expand192 _ _ _ => { mnemonic := "EXPAND.192", mask := 0x000000BF#32, pattern := 0x00000011#32 }
  | .expand256 _ _ _ => { mnemonic := "EXPAND.256", mask := 0x000000BF#32, pattern := 0x00000021#32 }
  | .todec128 _ _ => { mnemonic := "TODEC.128", mask := 0x000000FF#32, pattern := 0x00000002#32 }
  | .todec192 _ _ => { mnemonic := "TODEC.192", mask := 0x000000FF#32, pattern := 0x00000012#32 }
  | .todec256 _ _ => { mnemonic := "TODEC.256", mask := 0x000000FF#32, pattern := 0x00000022#32 }
  | .rounds128 => { mnemonic := "ROUNDS.128", mask := 0xFFFFFFFF#32, pattern := 0x00000003#32 }
  | .rounds192 => { mnemonic := "ROUNDS.192", mask := 0xFFFFFFFF#32, pattern := 0x00000013#32 }
  | .rounds256 => { mnemonic := "ROUNDS.256", mask := 0xFFFFFFFF#32, pattern := 0x00000023#32 }
  | .keybytes128 => { mnemonic := "KEYBYTES.128", mask := 0xFFFFFFFF#32, pattern := 0x00000004#32 }
  | .keybytes192 => { mnemonic := "KEYBYTES.192", mask := 0xFFFFFFFF#32, pattern := 0x00000014#32 }
  | .keybytes256 => { mnemonic := "KEYBYTES.256", mask := 0xFFFFFFFF#32, pattern := 0x00000024#32 }

/-- The word is a command: it matches a row of R52. -/
def Word.isCommand (w : Word) : Bool := opcodeRows.any (fun r => r.matchesWord w)

/-- R59: `<dst>` and `<src>` are numbers 0 to 4095; a `.word` is 32 bits wide. -/
def AsmLine.wf : AsmLine → Bool
  | .expand _ _ dst src => decide (dst ≤ 4095) && decide (src ≤ 4095)
  | .todec _ dst src => decide (dst ≤ 4095) && decide (src ≤ 4095)
  | .rounds _ => true
  | .keybytes _ => true
  | .expandPseudo dst src _ => decide (dst ≤ 4095) && decide (src ≤ 4095)
  | .word n => decide (n < 2 ^ 32)

/-- R6: `MEM_BYTES` is at most 4096, and at least one of `HAS_ASSIST`, `HAS_EMUL` is true. -/
def Config.wf (c : Config) : Bool := decide (c.memBytes ≤ 4096) && (c.hasAssist || c.hasEmul)

/-- R201: the moves that can be expressed on an instance. A host access lies inside `MEM`, a write has at least one
byte; the other moves are always possible. -/
def HostMove.wf (c : Config) : HostMove → Bool
  | .reset => true
  | .write a bytes => decide (1 ≤ bytes.length) && decide (a + bytes.length ≤ c.memBytes)
  | .read a n => decide (a + n ≤ c.memBytes)
  | .readReg _ => true
  | .issue _ => true

end Sys2Proof
end

