-- ==== Sys2Proof/Decode.lean ====
section
/-! DEFINITION. From a 32-bit word to a command or a named cause, total on all 2^32 words (`30_encoding.md` R50 to R57),
and back (R51); the dispatcher's selection (`44_dispatch_accessors.md` R151); the assembler of R59 and R60. -/

namespace Sys2Proof

/-! ## The fields of the word (R51) -/

def fieldOp (w : Word) : BitVec 4 := w.extractLsb' 0 4
def fieldSel (w : Word) : BitVec 2 := w.extractLsb' 4 2
def fieldP (w : Word) : Bool := w.getLsbD 6
def fieldZ7 (w : Word) : Bool := w.getLsbD 7
def fieldSrc (w : Word) : Addr := w.extractLsb' 8 12
def fieldDst (w : Word) : Addr := w.extractLsb' 20 12

/-- R53: 0 is 128, 1 is 192, 2 is 256; the value 3 encodes no selector. -/
def keySizeOf (sel : BitVec 2) : Option KeySize :=
  if sel = 0#2 then some .k128
  else if sel = 1#2 then some .k192
  else if sel = 2#2 then some .k256
  else none

/-- R54: `p = 0` is the assisted path, `p = 1` the emulated one. -/
def pathOf (p : Bool) : Path := if p then .emulated else .assisted

/-- The four ILLEGAL_CMD tests of R56 (R172); "they depend on `op`, `z7`, `p`, `src`, `dst` only" (R57). -/
def illegalWord (w : Word) : Bool :=
  let op := fieldOp w
  (op == 0#4 || decide (5 ≤ op.toNat))
    || fieldZ7 w
    || ((op == 2#4 || op == 3#4 || op == 4#4) && fieldP w)
    || ((op == 3#4 || op == 4#4) && (fieldSrc w != 0#12 || fieldDst w != 0#12))

/-! ## The row of an operation and a selector (R52) -/

/-- The dispatcher (R151): "selects one of 4.2/4.3/4.4 by selector value; no other branching"; the path passes through
unchanged. -/
def dispatchExpand (k : KeySize) (dst src : Addr) (p : Path) : Instr :=
  match k with
  | .k128 => .expand128 dst src p
  | .k192 => .expand192 dst src p
  | .k256 => .expand256 dst src p

def todecOf (k : KeySize) (dst src : Addr) : Instr :=
  match k with
  | .k128 => .todec128 dst src
  | .k192 => .todec192 dst src
  | .k256 => .todec256 dst src

def roundsOf (k : KeySize) : Instr :=
  match k with
  | .k128 => .rounds128
  | .k192 => .rounds192
  | .k256 => .rounds256

def keybytesOf (k : KeySize) : Instr :=
  match k with
  | .k128 => .keybytes128
  | .k192 => .keybytes192
  | .k256 => .keybytes256

/-- The decoder (R57): first the ILLEGAL_CMD tests, then `sel = 3`, and only then the row. -/
def decode (w : Word) : Except Cause Instr :=
  if illegalWord w then .error .illegalCmd
  else
    match keySizeOf (fieldSel w) with
    | none => .error .badSelector
    | some k =>
      if fieldOp w = 1#4 then .ok (dispatchExpand k (fieldDst w) (fieldSrc w) (pathOf (fieldP w)))
      else if fieldOp w = 2#4 then .ok (todecOf k (fieldDst w) (fieldSrc w))
      else if fieldOp w = 3#4 then .ok (roundsOf k)
      else .ok (keybytesOf k)

/-- The instruction the decoder reads from a table row's word `w` of `nbits` bits, the bits above `nbits` zero. Every
row of the table has 32 bits. -/
def decodeTableWord (nbits w : Nat) : Option Instr :=
  match decode (BitVec.ofNat 32 (w % 2 ^ nbits)) with
  | .ok i => some i
  | .error _ => none

/-! ## The encoder -/

/-- R51: `(dst << 20) | (src << 8) | (p << 6) | (sel << 4) | op`. -/
def packWord (dst src : Addr) (p : BitVec 1) (sel : BitVec 2) (op : BitVec 4) : Word :=
  (dst.setWidth 32 <<< 20) ||| (src.setWidth 32 <<< 8) ||| (p.setWidth 32 <<< 6)
    ||| (sel.setWidth 32 <<< 4) ||| op.setWidth 32

/-- The bit `p` of a path (R54). -/
def pathBit : Path → BitVec 1
  | .assisted => 0#1
  | .emulated => 1#1

/-- The word of a command (R51, R52). -/
def encode : Instr → Word
  | .expand128 dst src p => packWord dst src (pathBit p) 0#2 1#4
  | .expand192 dst src p => packWord dst src (pathBit p) 1#2 1#4
  | .expand256 dst src p => packWord dst src (pathBit p) 2#2 1#4
  | .todec128 dst src => packWord dst src 0#1 0#2 2#4
  | .todec192 dst src => packWord dst src 0#1 1#2 2#4
  | .todec256 dst src => packWord dst src 0#1 2#2 2#4
  | .rounds128 => packWord 0#12 0#12 0#1 0#2 3#4
  | .rounds192 => packWord 0#12 0#12 0#1 1#2 3#4
  | .rounds256 => packWord 0#12 0#12 0#1 2#2 3#4
  | .keybytes128 => packWord 0#12 0#12 0#1 0#2 4#4
  | .keybytes192 => packWord 0#12 0#12 0#1 1#2 4#4
  | .keybytes256 => packWord 0#12 0#12 0#1 2#2 4#4

/-! ## The assembler -/

/-- The command an assembler line names (R59: no suffix means `.A`, the destination is written first; R60: the
pseudo-instruction is the same word as `EXPAND.<size> dst, src`); a `.word` names no command. -/
def AsmLine.command : AsmLine → Option Instr
  | .expand k suffix dst src =>
    some (dispatchExpand k (BitVec.ofNat 12 dst) (BitVec.ofNat 12 src) (suffix.getD .assisted))
  | .todec k dst src => some (todecOf k (BitVec.ofNat 12 dst) (BitVec.ofNat 12 src))
  | .rounds k => some (roundsOf k)
  | .keybytes k => some (keybytesOf k)
  | .expandPseudo dst src k =>
    some (dispatchExpand k (BitVec.ofNat 12 dst) (BitVec.ofNat 12 src) .assisted)
  | .word _ => none

/-- The word of a well-formed assembler line; an ill-formed line has none. -/
def assemble (l : AsmLine) : Option Word :=
  if l.wf then
    match l with
    | .word n => some (BitVec.ofNat 32 n)
    | l => l.command.map encode
  else none

end Sys2Proof
end

