-- ==== Sys2Proof/Machine/State.lean ====
section
/-! DEFINITION. The state of one KSX instance and of the run it is in (`10_state.md` R10 to R20,
`70_reset_and_hazards.md` R191, R200, R201), the reasons the model's step can stop, and the state after reset. -/

namespace Sys2Proof.Machine

/-- What the step of the latest issued command reported: "refused, faulted or performed" (R201; R5, R180). Model-level:
the host gets nothing back from issuing a command (log 5). -/
inductive Report where
  /-- No command has been issued since reset. -/
  | none
  /-- The whole command was performed. -/
  | performed
  /-- Fault entry with this cause (R179). -/
  | faulted (c : Cause)
  /-- `STATUS.F` was 1: no state changed (R180). -/
  | refused
  deriving DecidableEq, Repr

/-- A value a host move returned (R201). -/
inductive Observation where
  /-- By `HOST.READ`: the bytes in address order. -/
  | bytes (bs : List Byte)
  /-- By `HOST.READREG`: the 32-bit value. -/
  | reg (v : Word)
  deriving DecidableEq, Repr

/-- One KSX instance, and the run it is in. Every field that is the spec's state is named in its comment; `resets` and
`freeCtr` are the model's own, and choose free values only. -/
structure State where
  /-- The parameters of the instance (R6). No step changes them (log 2). -/
  cfg : Config
  /-- `MEM` (R18): the bytes written since the last reset, addresses strictly rising (log 3). -/
  mem : List Host.Cell
  /-- `RES` (R11). -/
  res : Word
  /-- `STATUS` (R12). -/
  status : Word
  /-- `FCMD` (R13). -/
  fcmd : Word
  /-- Working register `W1` (R17). -/
  w1 : V128
  /-- Working register `W2` (R17). -/
  w2 : V128
  /-- Working register `WT` (R17). -/
  wt : V128
  /-- The command index `CMDIDX` (R15): model-level, not hardware. -/
  cmdIdx : Nat
  /-- The host's moves still to come (R200), the next one first (log 1). -/
  moves : List HostMove
  /-- The observation of the run so far (R200), oldest first. -/
  obs : List Observation
  /-- What the latest command's step reported (R180, R201). -/
  report : Report
  /-- The model's own: how many `HOST.RESET` moves were made; it picks the free contents of `MEM` (log 3). -/
  resets : Nat
  /-- The model's own: how many free V128 values were drawn; it picks the next ones (log 4). -/
  freeCtr : Nat
  deriving DecidableEq, Repr

/-- Why the model's step can stop with a fault. The faults of KSX (R171) are none of these: they are recorded in
`STATUS` and the machine goes on, so they are next states (R179). -/
inductive Fault where
  /-- Raised by a `HOST.READ` or `HOST.WRITE` of an address that does not exist, at or above `MEM_BYTES`. The spec says
  such a move cannot be expressed (R201; `93_implementation_defined.md` V9). Safe: the model stops where no hardware
  behaviour is described (log 6). -/
  | outsideMem
  deriving DecidableEq, Repr

/-- Why the model's step can be refused a meaning. The refusal of R180 is none of these: the machine goes on, so it is a
next state. -/
inductive Refusal where
  /-- Raised by `exec`'s arm of an instruction that has no meaning yet. Safe. Every arm has its meaning, so none raises
  it. -/
  | notModelled (mnemonic : String)
  /-- Raised by a `HOST.WRITE` of no bytes: R201 gives the move "`n >= 1` bytes", so it cannot be expressed. Safe
  (log 6). -/
  | emptyWrite
  deriving DecidableEq, Repr

/-- The machine right after reset (R20, R191) with no host move pending: `RES = STATUS = FCMD = 0`, `CMDIDX = 0`,
`MEM` and the working registers unspecified (free values), on the instance of R6's "value" column. -/
def State.reset : State where
  cfg := Config.example4096
  mem := []
  res := 0#32
  status := 0#32
  fcmd := 0#32
  w1 := Config.freeV128 0
  w2 := Config.freeV128 1
  wt := Config.freeV128 2
  cmdIdx := 0
  moves := []
  obs := []
  report := .none
  resets := 0
  freeCtr := 3

end Sys2Proof.Machine
end

