-- ==== Sys2Proof/Machine/Flags.lean ====
section
/-! DEFINITION. The one flag of KSX and the fields of `STATUS` (`10_state.md` R12, R16; `60_exceptions.md` R171, R179). -/

namespace Sys2Proof.Machine

/-- The code of a cause (R171): the value written to `STATUS.CAUSE`. -/
def causeCode : Cause → BitVec 4
  | .illegalCmd => 1#4
  | .badSelector => 2#4
  | .pathUnavailable => 3#4
  | .range => 4#4
  | .overlap => 5#4

/-- `zext_32((c << 4) | 1)`: `F = 1`, `CAUSE = c`, every other bit 0 (R179). -/
def statusOf (c : Cause) : Word := ((causeCode c).setWidth 32 <<< 4) ||| 1#32

/-- Bit 0 of a `STATUS` value (R12). -/
def statusF (v : Word) : Bool := v.getLsbD 0

/-- Bits 7:4 of a `STATUS` value (R12). -/
def statusCause (v : Word) : BitVec 4 := v.extractLsb' 4 4

/-- `STATUS.F` (R12, R16): a contract violation was detected since reset. -/
def flagF (s : State) : Bool := statusF s.status

end Sys2Proof.Machine
end

