-- ==== Sys2Proof/Machine/Operands.lean ====
section
/-! DEFINITION. The constants of a key size (`10_state.md` R24), the operands of a command as addresses and footprints
(`30_encoding.md` R55, `20_memory.md` R34), and the tests on them (R35, R36, `30_encoding.md` R54). -/

namespace Sys2Proof.Machine

/-! ## The selector's functions (R24) -/

/-- `rounds(sel)`. -/
def rounds : KeySize → Nat
  | .k128 => 10
  | .k192 => 12
  | .k256 => 14

/-- `key_bytes(sel)`. -/
def keyBytes : KeySize → Nat
  | .k128 => 16
  | .k192 => 24
  | .k256 => 32

/-- `sched_len(sel) = rounds(sel) + 1` round keys. -/
def schedLen (k : KeySize) : Nat := rounds k + 1

/-- The bytes of a schedule, `16 * sched_len(sel)` (R22, R24). -/
def schedBytes (k : KeySize) : Nat := 16 * schedLen k

/-! ## Addresses and footprints -/

/-- A buffer address of a command word as it stands: zero-extended, unscaled (R55). -/
def addrOf (a : Addr) : Nat := a.toNat

/-- The two footprints of a command (R34): `slen` bytes read from `src`, `dlen` bytes written from `dst`. -/
structure Footprint where
  src  : Nat
  slen : Nat
  dst  : Nat
  dlen : Nat
  deriving DecidableEq, Repr

/-- The footprints of `EXPAND.<size> dst, src` (R34). -/
def expandFootprint (k : KeySize) (dst src : Addr) : Footprint :=
  { src := addrOf src, slen := keyBytes k, dst := addrOf dst, dlen := schedBytes k }

/-- The footprints of `TODEC.<size> dst, src` (R34). -/
def todecFootprint (k : KeySize) (dst src : Addr) : Footprint :=
  { src := addrOf src, slen := schedBytes k, dst := addrOf dst, dlen := schedBytes k }

/-- The range rule holds (R35), in unbounded arithmetic. -/
def inRange (c : Config) (f : Footprint) : Bool :=
  decide (f.src + f.slen ≤ c.memBytes) && decide (f.dst + f.dlen ≤ c.memBytes)

/-- The footprints share a byte (R36): `src < dst + dlen and dst < src + slen`. -/
def overlaps (f : Footprint) : Bool := decide (f.src < f.dst + f.dlen) && decide (f.dst < f.src + f.slen)

/-- The instance has this path (R54). -/
def pathPresent (c : Config) : Path → Bool
  | .assisted => c.hasAssist
  | .emulated => c.hasEmul

end Sys2Proof.Machine
end

