-- ==== Sys2Proof/Machine/Vec.lean ====
section
/-! DEFINITION. Views and plain operations of words, halves and V128 values (`00_scope.md` R7): bytes, words, halves,
concatenation, the positionwise exclusive-or, and a V128 from its bytes. -/

namespace Sys2Proof.Machine

/-! ## Words -/

def KeyWord.zero : KeyWord := ⟨0#8, 0#8, 0#8, 0#8⟩

/-- `^` on words, position by position (R7). -/
def KeyWord.xor (a b : KeyWord) : KeyWord := ⟨a.b0 ^^^ b.b0, a.b1 ^^^ b.b1, a.b2 ^^^ b.b2, a.b3 ^^^ b.b3⟩

/-- Byte `r` of a word; in the AES state view, the byte in row `r` of a column (R7). -/
def KeyWord.byte (w : KeyWord) (r : Fin 4) : Byte :=
  match r with
  | 0 => w.b0
  | 1 => w.b1
  | 2 => w.b2
  | 3 => w.b3

/-- A byte function applied to every byte of a word. -/
def KeyWord.mapBytes (f : Byte → Byte) (w : KeyWord) : KeyWord := ⟨f w.b0, f w.b1, f w.b2, f w.b3⟩

/-! ## Halves -/

/-- `^` on halves. -/
def Half.xor (a b : Half) : Half := ⟨KeyWord.xor a.w0 b.w0, KeyWord.xor a.w1 b.w1⟩

/-! ## V128 -/

/-- `ZERO`: sixteen zero bytes (R7). -/
def V128.zero : V128 := ⟨KeyWord.zero, KeyWord.zero, KeyWord.zero, KeyWord.zero⟩

/-- `v.w[j]` (R7); in the AES state view, column `j`. -/
def V128.word (v : V128) (j : Fin 4) : KeyWord :=
  match j with
  | 0 => v.w0
  | 1 => v.w1
  | 2 => v.w2
  | 3 => v.w3

/-- `v[i]` (R7): byte `i` is byte `i mod 4` of word `i / 4`. -/
def V128.byte (v : V128) (i : Fin 16) : Byte :=
  KeyWord.byte (V128.word v ⟨i.val / 4, by omega⟩) ⟨i.val % 4, by omega⟩

/-- The V128 whose byte `i` is `f i`. -/
def V128.ofFn (f : Fin 16 → Byte) : V128 :=
  ⟨⟨f 0, f 1, f 2, f 3⟩, ⟨f 4, f 5, f 6, f 7⟩, ⟨f 8, f 9, f 10, f 11⟩, ⟨f 12, f 13, f 14, f 15⟩⟩

/-- The V128 whose word `j` is `f j`. -/
def V128.ofWords (f : Fin 4 → KeyWord) : V128 := ⟨f 0, f 1, f 2, f 3⟩

/-- A word function applied to every word; in the AES state view, to every column. -/
def V128.mapWords (f : KeyWord → KeyWord) (v : V128) : V128 := ⟨f v.w0, f v.w1, f v.w2, f v.w3⟩

/-- A byte function applied to every byte. -/
def V128.mapBytes (f : Byte → Byte) (v : V128) : V128 := V128.mapWords (KeyWord.mapBytes f) v

/-- `^` on V128 values. -/
def V128.xor (a b : V128) : V128 :=
  ⟨KeyWord.xor a.w0 b.w0, KeyWord.xor a.w1 b.w1, KeyWord.xor a.w2 b.w2, KeyWord.xor a.w3 b.w3⟩

/-- `LO(v) = v.d[0]` (R7). -/
def V128.lo (v : V128) : Half := ⟨v.w0, v.w1⟩

/-- `HI(v) = v.d[1]` (R7). -/
def V128.hi (v : V128) : Half := ⟨v.w2, v.w3⟩

/-- `a ++ b` of two halves, lower indices first (R7). -/
def V128.ofHalves (a b : Half) : V128 := ⟨a.w0, a.w1, b.w0, b.w1⟩

/-- The sixteen bytes of a V128 in index order (R7, R31). -/
def V128.bytes (v : V128) : List Byte :=
  [v.w0.b0, v.w0.b1, v.w0.b2, v.w0.b3, v.w1.b0, v.w1.b1, v.w1.b2, v.w1.b3,
   v.w2.b0, v.w2.b1, v.w2.b2, v.w2.b3, v.w3.b0, v.w3.b1, v.w3.b2, v.w3.b3]

end Sys2Proof.Machine
end

