-- ==== Sys2Proof/Machine/Ops.lean ====
section
/-! DEFINITION. The named operations over memory and registers: reading and writing `MEM` (`00_scope.md` R7,
`20_memory.md` R31), `LOAD128`, `LOAD64Z`, `STORE128` (`40_round_primitives.md` R78 to R80), whole schedules
(`10_state.md` R22), the working registers (R17), fault entry and refusal (`60_exceptions.md` R179, R180) and the
prologue every command begins with (`44_dispatch_accessors.md` R150). -/

namespace Sys2Proof.Machine

/-! ## The list of written bytes -/

/-- The byte the list holds for address `a`, if any. -/
def Memory.find : List Host.Cell → Nat → Option Byte
  | [], _ => none
  | (b, v) :: m, a => if a = b then some v else Memory.find m a

/-- The list with `v` at address `a`, in its place. -/
def Memory.put : List Host.Cell → Nat → Byte → List Host.Cell
  | [], a, v => [(a, v)]
  | (b, u) :: m, a, v =>
    if a < b then (a, v) :: (b, u) :: m
    else if a = b then (a, v) :: m
    else (b, u) :: Memory.put m a v

/-- The list with the bytes `v[0], v[1], ...` at `a`, `a + 1`, ... -/
def Memory.putBytes : List Host.Cell → Nat → List Byte → List Host.Cell
  | m, _, [] => m
  | m, a, v :: vs => Memory.putBytes (Memory.put m a v) (a + 1) vs

/-- The list after `STORE128(a, v)`: `MEM[a + i] = v[i]` (R79). -/
def Memory.putV128 (m : List Host.Cell) (a : Nat) (v : V128) : List Host.Cell := Memory.putBytes m a (V128.bytes v)

/-- The list after `STORE128(base + 16*i, rk[i])` for every round key (R22). -/
def Memory.putSchedule : List Host.Cell → Nat → List V128 → List Host.Cell
  | m, _, [] => m
  | m, base, rk :: rks => Memory.putSchedule (Memory.putV128 m base rk) (base + 16) rks

/-- The addresses are strictly rising, at least `lo`, and below `limit`. -/
def Memory.wfFrom (lo limit : Nat) : List Host.Cell → Bool
  | [] => true
  | (a, _) :: m => decide (lo ≤ a) && decide (a < limit) && Memory.wfFrom (a + 1) limit m

/-- The canonical form of the memory of an instance with `limit` bytes: addresses strictly rising and all in `MEM`.
An unlisted address has no value of its own in the list (it reads as a free value), so no entry can equal it: the
list holds exactly the addresses written since the last reset (log 3). -/
def Memory.wf (limit : Nat) (m : List Host.Cell) : Bool := Memory.wfFrom 0 limit m

/-! ## Bytes of `MEM` -/

/-- What an address nothing has written since the last reset reads as (R20): a free value. -/
def State.unwritten (s : State) (a : Nat) : Byte := Config.resetByte s.resets a

/-- `MEM[a]`. -/
def State.readByte (s : State) (a : Nat) : Byte := (Memory.find s.mem a).getD (State.unwritten s a)

/-- `MEM[a] <- v`. -/
def State.writeByte (s : State) (a : Nat) (v : Byte) : State := { s with mem := Memory.put s.mem a v }

/-- `MemRead(a, n)` (R7): element `i` from address `a + i`. -/
def State.memRead (s : State) (a : Nat) : Nat → List Byte
  | 0 => []
  | n + 1 => State.readByte s a :: State.memRead s (a + 1) n

/-- `MemWrite(a, n, v)` (R7): `MEM[a+i] = v[i]`. -/
def State.memWrite (s : State) (a : Nat) (v : List Byte) : State := { s with mem := Memory.putBytes s.mem a v }

/-! ## Load and store -/

/-- `LOAD128(a)`: `v[i] = MEM[a + i]` (R78). -/
def load128 (s : State) (a : Nat) : V128 := V128.ofFn (fun i => State.readByte s (a + i.val))

/-- `LOAD64Z(a)`: `v[i] = MEM[a + i]` for `i` in 0..7, and 0 for `i` in 8..15; it reads nothing beyond `a + 7` (R80). -/
def load64z (s : State) (a : Nat) : V128 :=
  V128.ofFn (fun i => if i.val < 8 then State.readByte s (a + i.val) else 0#8)

/-- `STORE128(a, v)`: `MEM[a + i] = v[i]` (R79). -/
def store128 (s : State) (a : Nat) (v : V128) : State := { s with mem := Memory.putV128 s.mem a v }

/-- `rk[i] <- LOAD128(base + 16*i)` for `count` round keys from `base` (R22, R160). -/
def loadSchedule (s : State) (base : Nat) : Nat → List V128
  | 0 => []
  | count + 1 => load128 s base :: loadSchedule s (base + 16) count

/-- `STORE128(base + 16*i, rk[i])` for every round key of the list (R22, R110, R120, R135, R160). -/
def storeSchedule (s : State) (base : Nat) (rks : List V128) : State :=
  { s with mem := Memory.putSchedule s.mem base rks }

/-! ## Registers -/

/-- The value the host reads from a register (R11 to R13, R201). -/
def readReg (s : State) : HostReg → Word
  | .res => s.res
  | .status => s.status
  | .fcmd => s.fcmd

/-- `x[RES] <- v` (R11). -/
def setRes (s : State) (v : Word) : State := { s with res := v }

/-- What a command leaves in the working registers: the value its micro-operations give, or `none` where the spec does
not say what the register holds (R17; U10). -/
structure Scratch where
  w1 : Option V128
  w2 : Option V128
  wt : Option V128
  deriving DecidableEq, Repr

/-- Write the working registers; where the spec says no value, a fresh free value (log 4). -/
def setScratch (s : State) (x : Scratch) : State :=
  { s with
    w1 := x.w1.getD (Config.freeV128 s.freeCtr)
    w2 := x.w2.getD (Config.freeV128 (s.freeCtr + 1))
    wt := x.wt.getD (Config.freeV128 (s.freeCtr + 2))
    freeCtr := s.freeCtr + 3 }

/-! ## Fault entry, refusal, and the end of a command -/

/-- `raise Fault(c)` on command word `w`, "exactly this": `STATUS` and `FCMD` are written, nothing else (R179). -/
def faultEntry (c : Cause) (w : Word) (s : State) : State := { s with status := statusOf c, fcmd := w }

/-- The model-level end of a command that was consumed: `CMDIDX` moves on by 1 (R15) and the step's report is kept. -/
def consume (r : Report) (s : State) : State := { s with cmdIdx := s.cmdIdx + 1, report := r }

/-- Taking a fault (R179): fault entry, and the command is consumed. -/
def raiseFault (c : Cause) (w : Word) (s : State) : State := consume (.faulted c) (faultEntry c w s)

/-- Refusal (R180): no state of the machine changes and `CMDIDX` stays (R15); the step reports "refused". -/
def refuse (s : State) : State := { s with report := .refused }

/-- Reset (R190, R191), the only return from the faulted state (R189): `RES = STATUS = FCMD = 0`, `CMDIDX = 0`, `MEM` and
the working registers unspecified. The host's own list of moves and observations goes on. -/
def resetEntry (s : State) : State :=
  { s with
    mem := []
    res := 0#32
    status := 0#32
    fcmd := 0#32
    w1 := Config.freeV128 s.freeCtr
    w2 := Config.freeV128 (s.freeCtr + 1)
    wt := Config.freeV128 (s.freeCtr + 2)
    cmdIdx := 0
    report := .none
    resets := s.resets + 1
    freeCtr := s.freeCtr + 3 }

/-! ## The prologue (R150) -/

/-- What the tests of the prologue say of a command. -/
inductive Verdict where
  /-- Test 0 fired: `STATUS.F = 1`. -/
  | refuse
  /-- A later test fired. -/
  | fault (c : Cause)
  /-- No test fired. -/
  | perform
  deriving DecidableEq, Repr

/-- The prologue's tests 0 and 3 to 5 in order, for a word the decoder has already passed through tests 1 and 2 (R150,
R178). `path` is given for EXPAND only, `fp` for EXPAND and TODEC only. -/
def prologue (s : State) (path : Option Path) (fp : Option Footprint) : Verdict :=
  if flagF s then .refuse
  else if path.any (fun p => !pathPresent s.cfg p) then .fault .pathUnavailable
  else if fp.any (fun f => !inRange s.cfg f) then .fault .range
  else if fp.any overlaps then .fault .overlap
  else .perform

/-- One command as one step (R5, R39, R150): its prologue, then all of its effect or none of it. `w` is the command's
word, recorded by fault entry. -/
def command (w : Word) (path : Option Path) (fp : Option Footprint) (perform : State → State) (s : State) :
    Host.Outcome State Fault Refusal :=
  match prologue s path fp with
  | .refuse => .next (refuse s)
  | .fault c => .next (raiseFault c w s)
  | .perform => .next (consume .performed (perform s))

end Sys2Proof.Machine
end

