-- ==== Sys2Proof/Machine/Accessors.lean ====
section
/-! DEFINITION. The meanings of ROUNDS and KEYBYTES (`44_dispatch_accessors.md` R152, R153): the constant of the
command's own selector goes to `RES`; memory is not reached and there is no path and no footprint to test. -/

namespace Sys2Proof.Machine

/-- `x[RES] <- zext_32(rounds(sel))` (R152). -/
def performRounds (k : KeySize) (s : State) : State := setRes s (BitVec.ofNat 32 (rounds k))

/-- `x[RES] <- zext_32(key_bytes(sel))` (R153). -/
def performKeybytes (k : KeySize) (s : State) : State := setRes s (BitVec.ofNat 32 (keyBytes k))

/-- `ROUNDS.128` (R152). -/
def execRounds128 (s : State) : Host.Outcome State Fault Refusal :=
  command (encode .rounds128) none none (performRounds .k128) s

/-- `ROUNDS.192` (R152). -/
def execRounds192 (s : State) : Host.Outcome State Fault Refusal :=
  command (encode .rounds192) none none (performRounds .k192) s

/-- `ROUNDS.256` (R152). -/
def execRounds256 (s : State) : Host.Outcome State Fault Refusal :=
  command (encode .rounds256) none none (performRounds .k256) s

/-- `KEYBYTES.128` (R153). -/
def execKeybytes128 (s : State) : Host.Outcome State Fault Refusal :=
  command (encode .keybytes128) none none (performKeybytes .k128) s

/-- `KEYBYTES.192` (R153). -/
def execKeybytes192 (s : State) : Host.Outcome State Fault Refusal :=
  command (encode .keybytes192) none none (performKeybytes .k192) s

/-- `KEYBYTES.256` (R153). -/
def execKeybytes256 (s : State) : Host.Outcome State Fault Refusal :=
  command (encode .keybytes256) none none (performKeybytes .k256) s

end Sys2Proof.Machine
end

