-- ==== Sys2Proof/Machine/Field.lean ====
section
/-! DEFINITION. The field GF(2^8) of the data (`40_round_primitives.md` R71, R97) and the round constants (R87). -/

namespace Sys2Proof.Machine

/-- `xtime(a) = ((a << 1) & 0xFF) ^ (0x1B if a[7] = 1 else 0x00)` (R71). -/
def xtime (a : Byte) : Byte := (a <<< 1) ^^^ (if a.getLsbD 7 then 0x1B#8 else 0x00#8)

/-- `xtime` applied `i` times (R71). -/
def xtimes : Nat → Byte → Byte
  | 0, a => a
  | i + 1, a => xtimes i (xtime a)

/-- `xtime^i(a)` where bit `i` of `b` is 1, and 0 where it is 0. -/
def gmulTerm (a b : Byte) (i : Nat) : Byte := if b.getLsbD i then xtimes i a else 0x00#8

/-- `gmul(a, b) = XOR over every bit i of b that is 1 of xtime^i(a)` (R71). -/
def gmul (a b : Byte) : Byte :=
  gmulTerm a b 0 ^^^ gmulTerm a b 1 ^^^ gmulTerm a b 2 ^^^ gmulTerm a b 3
    ^^^ gmulTerm a b 4 ^^^ gmulTerm a b 5 ^^^ gmulTerm a b 6 ^^^ gmulTerm a b 7

/-- `RCON[1]` to `RCON[10]` (R87), in order. -/
def rconList : List Byte :=
  [0x01#8, 0x02#8, 0x04#8, 0x08#8, 0x10#8, 0x20#8, 0x40#8, 0x80#8, 0x1B#8, 0x36#8]

/-- `RCON[n]` for `n` from 1 to 10 (R87); no rule uses another `n`. -/
def rcon (n : Nat) : Byte := rconList.getD (n - 1) 0x00#8

/-- The first `k` round constants in order: each expander takes a prefix (R87, R61). -/
def rconPrefix (k : Nat) : List Byte := rconList.take k

end Sys2Proof.Machine
end

