-- ==== Sys2Proof/Machine/Rounds.lean ====
section
/-! DEFINITION. The byte-level transforms and the round primitives (`40_round_primitives.md` R74 to R77, R81 to R85), and
the encryption and decryption round sequences of `45_schedule_converter.md` R164, which no command runs. -/

namespace Sys2Proof.Machine

/-- `PERM(v, m)[i] = v[m[i]]` for a list `m` of 16 indices (R92). -/
def perm (v : V128) (m : List (Fin 16)) : V128 := V128.ofFn (fun i => V128.byte v (m.getD i.val 0))

/-! ## The four byte-level transforms -/

/-- `SubBytes(v)[i] = SBOX[v[i]]` (R74). -/
def subBytes (v : V128) : V128 := V128.mapBytes sbox v

/-- `InvSubBytes(v)[i] = INV_SBOX[v[i]]` (R74). -/
def invSubBytes (v : V128) : V128 := V128.mapBytes invSbox v

/-- The index list `S` of R75. -/
def shiftRowsIndex : List (Fin 16) := [0, 5, 10, 15, 4, 9, 14, 3, 8, 13, 2, 7, 12, 1, 6, 11]

/-- The index list of `InvShiftRows` (R75). -/
def invShiftRowsIndex : List (Fin 16) := [0, 13, 10, 7, 4, 1, 14, 11, 8, 5, 2, 15, 12, 9, 6, 3]

/-- `ShiftRows(v)[i] = v[S[i]]` (R75). -/
def shiftRows (v : V128) : V128 := perm v shiftRowsIndex

/-- `InvShiftRows` (R75). -/
def invShiftRows (v : V128) : V128 := perm v invShiftRowsIndex

/-- `MixColumns` on one column (R76). -/
def mixColumn (a : KeyWord) : KeyWord :=
  ⟨gmul a.b0 2#8 ^^^ gmul a.b1 3#8 ^^^ a.b2 ^^^ a.b3,
   a.b0 ^^^ gmul a.b1 2#8 ^^^ gmul a.b2 3#8 ^^^ a.b3,
   a.b0 ^^^ a.b1 ^^^ gmul a.b2 2#8 ^^^ gmul a.b3 3#8,
   gmul a.b0 3#8 ^^^ a.b1 ^^^ a.b2 ^^^ gmul a.b3 2#8⟩

/-- `MixColumns` (R76). -/
def mixColumns (v : V128) : V128 := V128.mapWords mixColumn v

/-- `InvMixColumns` on one column (R77). -/
def invMixColumn (a : KeyWord) : KeyWord :=
  ⟨gmul a.b0 14#8 ^^^ gmul a.b1 11#8 ^^^ gmul a.b2 13#8 ^^^ gmul a.b3 9#8,
   gmul a.b0 9#8 ^^^ gmul a.b1 14#8 ^^^ gmul a.b2 11#8 ^^^ gmul a.b3 13#8,
   gmul a.b0 13#8 ^^^ gmul a.b1 9#8 ^^^ gmul a.b2 14#8 ^^^ gmul a.b3 11#8,
   gmul a.b0 11#8 ^^^ gmul a.b1 13#8 ^^^ gmul a.b2 9#8 ^^^ gmul a.b3 14#8⟩

/-- `InvMixColumns` (R77). -/
def invMixColumns (v : V128) : V128 := V128.mapWords invMixColumn v

/-! ## Cipher rounds -/

/-- `FWD_ROUND(s, k) = MixColumns(ShiftRows(SubBytes(s))) ^ k` (R81). -/
def fwdRound (s k : V128) : V128 := V128.xor (mixColumns (shiftRows (subBytes s))) k

/-- `FWD_LAST(s, k) = ShiftRows(SubBytes(s)) ^ k` (R82). -/
def fwdLast (s k : V128) : V128 := V128.xor (shiftRows (subBytes s)) k

/-- `INV_ROUND(s, k) = InvMixColumns(InvSubBytes(InvShiftRows(s))) ^ k` (R83). -/
def invRound (s k : V128) : V128 := V128.xor (invMixColumns (invSubBytes (invShiftRows s))) k

/-- `INV_LAST(s, k) = InvSubBytes(InvShiftRows(s)) ^ k` (R84). -/
def invLast (s k : V128) : V128 := V128.xor (invSubBytes (invShiftRows s)) k

/-- `IMC(v) = InvMixColumns(v)` (R85), used by the schedule converter only. -/
def imc (v : V128) : V128 := invMixColumns v

/-! ## The round sequences of R164 -/

/-- Element `i` of a schedule. Every use is inside the schedule's length. -/
def roundKey (sched : List V128) (i : Nat) : V128 := sched.getD i V128.zero

/-- `s` after `FWD_ROUND` with elements `i`, `i+1`, ..., `count` of them. -/
def fwdRounds (sched : List V128) (i : Nat) : Nat → V128 → V128
  | 0, s => s
  | count + 1, s => fwdRounds sched (i + 1) count (fwdRound s (roundKey sched i))

/-- `s` after `INV_ROUND` with elements `i`, `i+1`, ..., `count` of them. -/
def invRounds (sched : List V128) (i : Nat) : Nat → V128 → V128
  | 0, s => s
  | count + 1, s => invRounds sched (i + 1) count (invRound s (roundKey sched i))

/-- `ENCRYPT(enc, n, pt)` (R164). No command runs it. -/
def encryptBlock (enc : List V128) (n : Nat) (pt : V128) : V128 :=
  fwdLast (fwdRounds enc 1 (n - 1) (V128.xor pt (roundKey enc 0))) (roundKey enc n)

/-- `DECRYPT(dec, n, ct)` (R164), in ascending index order (`90_conflicts.md` C4). No command runs it. -/
def decryptBlock (dec : List V128) (n : Nat) (ct : V128) : V128 :=
  invLast (invRounds dec 1 (n - 1) (V128.xor ct (roundKey dec 0))) (roundKey dec n)

end Sys2Proof.Machine
end

