-- ==== Sys2Proof/Machine/KeySchedule.lean ====
section
/-! DEFINITION. The key-schedule helpers (`40_round_primitives.md` R86 to R95) and what the commands compute on values:
the three expanders on both paths (`41_expand128.md`, `42_expand192.md`, `43_expand256.md`) and the schedule converter
(`45_schedule_converter.md` R161). A schedule is the list of its round keys, round key 0 first (R22). -/

namespace Sys2Proof.Machine

/-! ## Words (R86) -/

/-- `SubWord` (R86). -/
def subWord (a : KeyWord) : KeyWord := KeyWord.mapBytes sbox a

/-- `RotWord(a) = [a[1], a[2], a[3], a[0]]` (R86). -/
def rotWord (a : KeyWord) : KeyWord := ⟨a.b1, a.b2, a.b3, a.b0⟩

/-- `RcWord(rc) = [rc, 0, 0, 0]` (R86). -/
def rcWord (rc : Byte) : KeyWord := ⟨rc, 0#8, 0#8, 0#8⟩

/-! ## The assist and the vector helpers -/

/-- `KEYGEN_ASSIST(v, rc)` (R88). -/
def keygenAssist (v : V128) (rc : Byte) : V128 :=
  ⟨subWord v.w1, KeyWord.xor (rotWord (subWord v.w1)) (rcWord rc),
   subWord v.w3, KeyWord.xor (rotWord (subWord v.w3)) (rcWord rc)⟩

/-- `SLLW(v, n)` (R89): word `j - n` moves to word `j`, zero words come in. The rules use `n` in 1..3. -/
def sllw (v : V128) (n : Nat) : V128 :=
  V128.ofWords (fun j => if n ≤ j.val then V128.word v ⟨j.val - n, by omega⟩ else KeyWord.zero)

/-- `RIPPLE(v) = v ^ SLLW(v,1) ^ SLLW(v,2) ^ SLLW(v,3)` (R90). -/
def ripple (v : V128) : V128 := V128.xor (V128.xor (V128.xor v (sllw v 1)) (sllw v 2)) (sllw v 3)

/-- `BCASTW(v, j)` (R91). -/
def bcastw (v : V128) (j : Fin 4) : V128 := V128.ofWords (fun _ => V128.word v j)

/-- `BCAST_RC(rc)` (R91). -/
def bcastRc (rc : Byte) : V128 := V128.ofWords (fun _ => rcWord rc)

/-- `ROT_MASK` (R92). -/
def rotMask : List (Fin 16) := [13, 14, 15, 12, 13, 14, 15, 12, 13, 14, 15, 12, 13, 14, 15, 12]

/-- `NOROT_MASK` (R92). -/
def norotMask : List (Fin 16) := [12, 13, 14, 15, 12, 13, 14, 15, 12, 13, 14, 15, 12, 13, 14, 15]

/-- `PACK_LL(a, b) = LO(a) ++ LO(b)` (R93). -/
def packLL (a b : V128) : V128 := V128.ofHalves (V128.lo a) (V128.lo b)

/-- `PACK_HL(a, b) = HI(a) ++ LO(b)` (R93). -/
def packHL (a b : V128) : V128 := V128.ofHalves (V128.hi a) (V128.lo b)

/-- `SUBROT(prev, rc, path)` (R94). -/
def subrot (prev : V128) (rc : Byte) : Path → V128
  | .assisted => bcastw (keygenAssist prev rc) 3
  | .emulated => V128.xor (fwdLast (perm prev rotMask) V128.zero) (bcastRc rc)

/-- `SUBONLY(prev, path)` (R95). -/
def subonly (prev : V128) : Path → V128
  | .assisted => bcastw (keygenAssist prev 0x00#8) 2
  | .emulated => fwdLast (perm prev norotMask) V128.zero

/-! ## EXPAND.128 (R110 to R112) -/

/-- Round keys `i, i+1, ...` from round key `i-1`, one per constant (R110's loop; the path's own micro-operations are
those of R111 and R112, which `subrot` performs). -/
def expand128From (p : Path) : V128 → List Byte → List V128
  | _, [] => []
  | prev, rc :: rcs =>
    let rk := V128.xor (ripple prev) (subrot prev rc p)
    rk :: expand128From p rk rcs

/-- The eleven round keys of a 16-byte key (R110). -/
def expand128 (p : Path) (key : V128) : List V128 := key :: expand128From p key (rconPrefix 10)

/-! ## EXPAND.192, assisted (R122, R123) -/

/-- The assist step `A192(W1, W2, rc)` (R122). The high half of the second register keeps its by-products. -/
def a192 (w1 w2 : V128) (rc : Byte) : V128 × V128 :=
  let wt := keygenAssist w2 rc
  let w1' := V128.xor (ripple w1) (bcastw wt 1)
  let w2' := V128.xor (V128.xor w2 (sllw w2 1)) (bcastw w1' 3)
  (w1', w2')

/-- `(A_0, B_0), (A_1, B_1), ...`: the pair given and one more per constant (R123). -/
def a192Pairs : V128 × V128 → List Byte → List (V128 × V128)
  | ab, [] => [ab]
  | ab, rc :: rcs => ab :: a192Pairs (a192 ab.1 ab.2 rc) rcs

/-- The slot table of R123: from `A_2m, B_2m, A_2m+1, B_2m+1` the slots `3m`, `3m+1`, `3m+2`; the last pair gives its
first register only and its second is discarded (`90_conflicts.md` C5). -/
def slots192 : List (V128 × V128) → List V128
  | [] => []
  | [(a, _)] => [a]
  | (a0, b0) :: (a1, b1) :: rest => a0 :: packLL b0 a1 :: packHL a1 b1 :: slots192 rest

/-! ## EXPAND.192, emulated (R125) -/

/-- `HRIP([q0, q1]) = [q0, q0 ^ q1]` (R125). -/
def hrip (q : Half) : Half := ⟨q.w0, KeyWord.xor q.w0 q.w1⟩

/-- `CARRY([q0, q1]) = [q1, 0]` (R125). -/
def carry (q : Half) : Half := ⟨q.w1, KeyWord.zero⟩

/-- The halves `h[b], h[b+1], h[b+2], h[b+3], ...` from `h[b-3]`, `h[b-2]`, `h[b-1]`, one step per constant; the step of
the last constant writes two halves only (R125). -/
def halves192 : Half → Half → Half → List Byte → List Half
  | _, _, _, [] => []
  | h3, h2, h1, rc :: rcs =>
    let u := V128.xor (fwdLast (perm (V128.ofHalves h1 h1) rotMask) V128.zero) (bcastRc rc)
    let hb := Half.xor (hrip h3) (V128.lo u)
    let hb1 := hrip (Half.xor h2 (carry hb))
    match rcs with
    | [] => [hb, hb1]
    | _ :: _ =>
      let hb2 := hrip (Half.xor h1 (carry hb1))
      hb :: hb1 :: hb2 :: halves192 hb hb1 hb2 rcs

/-- `rk[i] = h[2i] ++ h[2i+1]` (R125). -/
def pairHalves : List Half → List V128
  | a :: b :: rest => V128.ofHalves a b :: pairHalves rest
  | _ => []

/-- The thirteen round keys of a 24-byte key read as `A0`, `B0` (R121): R123 on the assisted path, R125 on the emulated. -/
def expand192 (p : Path) (a0 b0 : V128) : List V128 :=
  match p with
  | .assisted => slots192 (a192Pairs (a0, b0) (rconPrefix 8))
  | .emulated =>
    pairHalves (V128.lo a0 :: V128.hi a0 :: V128.lo b0 ::
      halves192 (V128.lo a0) (V128.hi a0) (V128.lo b0) (rconPrefix 8))

/-! ## EXPAND.256 (R135 to R138) -/

/-- The type A step (R136). -/
def typeA (p : Path) (back2 back1 : V128) (rc : Byte) : V128 := V128.xor (ripple back2) (subrot back1 rc p)

/-- The type B step (R137). -/
def typeB (p : Path) (back2 back1 : V128) : V128 := V128.xor (ripple back2) (subonly back1 p)

/-- Round keys `i, i+1, ...` from `rk[i-2]`, `rk[i-1]`, a type A and a type B step per constant; no type B step after
the last (R138). -/
def expand256From (p : Path) : V128 → V128 → List Byte → List V128
  | _, _, [] => []
  | x, y, rc :: rcs =>
    let a := typeA p x y rc
    match rcs with
    | [] => [a]
    | _ :: _ =>
      let b := typeB p y a
      a :: b :: expand256From p a b rcs

/-- The fifteen round keys of a 32-byte key (R135). -/
def expand256 (p : Path) (key0 key1 : V128) : List V128 :=
  key0 :: key1 :: expand256From p key0 key1 (rconPrefix 7)

/-! ## The schedule converter (R161) -/

/-- The loop of R161 for the indices `i`, `i+1`, ..., `count` of them: `dec[n-i] <- IMC(enc[i])`,
`dec[i] <- IMC(enc[n-i])`. -/
def convertLoop (enc : List V128) (n : Nat) (i : Nat) : Nat → List V128 → List V128
  | 0, dec => dec
  | count + 1, dec =>
    convertLoop enc n (i + 1) count
      ((dec.set (n - i) (imc (roundKey enc i))).set i (imc (roundKey enc (n - i))))

/-- `CONVERT(enc, n)` (R161), assignment by assignment. The result's `n + 1` places are each assigned exactly once, so
what they are created with is never seen. -/
def convert (enc : List V128) (n : Nat) : List V128 :=
  let dec := List.replicate (n + 1) V128.zero
  let dec := dec.set n (roundKey enc 0)
  let dec := dec.set 0 (roundKey enc n)
  let dec := convertLoop enc n 1 (n / 2 - 1) dec
  dec.set (n / 2) (imc (roundKey enc (n / 2)))

end Sys2Proof.Machine
end

