-- ==== Sys2Proof/Machine/Expand.lean ====
section
/-! DEFINITION. The meanings of EXPAND.128, EXPAND.192 and EXPAND.256 (`41_expand128.md` R110, `42_expand192.md` R120,
`43_expand256.md` R135). Each loads the key, computes every round key on its one path, stores the whole schedule, and
leaves the working registers as its micro-operations do. -/

namespace Sys2Proof.Machine

/-! ## EXPAND.128 -/

/-- What EXPAND.128 leaves in the working registers: the last iteration of R111 (`WT` the assist's result, `W1` the
ripple) or of R112 (`WT` the substituted word with its constant). -/
def scratch128 (p : Path) (rks : List V128) : Scratch :=
  match p with
  | .assisted =>
    { w1 := some (ripple (roundKey rks 9))
      w2 := none
      wt := some (keygenAssist (roundKey rks 9) (rcon 10)) }
  | .emulated => { w1 := none, w2 := none, wt := some (subrot (roundKey rks 9) (rcon 10) .emulated) }

/-- R110 after its prologue. -/
def performExpand128 (dst src : Addr) (p : Path) (s : State) : State :=
  let rks := expand128 p (load128 s (addrOf src))
  setScratch (storeSchedule s (addrOf dst) rks) (scratch128 p rks)

/-- `EXPAND.128[.A|.E] dst, src` (R110). -/
def execExpand128 (dst src : Addr) (p : Path) (s : State) : Host.Outcome State Fault Refusal :=
  command (encode (.expand128 dst src p)) (some p) (some (expandFootprint .k128 dst src))
    (performExpand128 dst src p) s

/-! ## EXPAND.192 -/

/-- `A_n, B_n` of R123 for a key read as `A_0, B_0`. -/
def pair192 (a0 b0 : V128) (n : Nat) : V128 × V128 :=
  (a192Pairs (a0, b0) (rconPrefix 8)).getD n (V128.zero, V128.zero)

/-- What EXPAND.192 leaves in the working registers: `W1 = A_8`, `W2 = B_8` (its surplus half stays there, R196) and `WT`
the eighth assist's result on the assisted path (R122, R123); R125 names no working register. -/
def scratch192 (p : Path) (a0 b0 : V128) : Scratch :=
  match p with
  | .assisted =>
    { w1 := some (pair192 a0 b0 8).1
      w2 := some (pair192 a0 b0 8).2
      wt := some (keygenAssist (pair192 a0 b0 7).2 (rcon 8)) }
  | .emulated => { w1 := none, w2 := none, wt := none }

/-- R120 after its prologue; the key is read with `LOAD128` and the guarded `LOAD64Z` (R121). -/
def performExpand192 (dst src : Addr) (p : Path) (s : State) : State :=
  let a0 := load128 s (addrOf src)
  let b0 := load64z s (addrOf src + 16)
  setScratch (storeSchedule s (addrOf dst) (expand192 p a0 b0)) (scratch192 p a0 b0)

/-- `EXPAND.192[.A|.E] dst, src` (R120). -/
def execExpand192 (dst src : Addr) (p : Path) (s : State) : Host.Outcome State Fault Refusal :=
  command (encode (.expand192 dst src p)) (some p) (some (expandFootprint .k192 dst src))
    (performExpand192 dst src p) s

/-! ## EXPAND.256 -/

/-- R136 and R137 name no working register. -/
def scratch256 : Scratch := { w1 := none, w2 := none, wt := none }

/-- R135 after its prologue. -/
def performExpand256 (dst src : Addr) (p : Path) (s : State) : State :=
  let key0 := load128 s (addrOf src)
  let key1 := load128 s (addrOf src + 16)
  setScratch (storeSchedule s (addrOf dst) (expand256 p key0 key1)) scratch256

/-- `EXPAND.256[.A|.E] dst, src` (R135). -/
def execExpand256 (dst src : Addr) (p : Path) (s : State) : Host.Outcome State Fault Refusal :=
  command (encode (.expand256 dst src p)) (some p) (some (expandFootprint .k256 dst src))
    (performExpand256 dst src p) s

end Sys2Proof.Machine
end

