-- ==== Sys2Proof/Machine/Todec.lean ====
section
/-! DEFINITION. The meanings of TODEC.128, TODEC.192 and TODEC.256 (`45_schedule_converter.md` R160): read the whole
encryption schedule, convert it (R161), store the whole decryption schedule. -/

namespace Sys2Proof.Machine

/-- R160 names no value of a working register. -/
def scratchTodec : Scratch := { w1 := none, w2 := none, wt := none }

/-- R160 after its prologue, for the schedule length of `k`. -/
def performTodec (k : KeySize) (dst src : Addr) (s : State) : State :=
  let enc := loadSchedule s (addrOf src) (schedLen k)
  setScratch (storeSchedule s (addrOf dst) (convert enc (rounds k))) scratchTodec

/-- `TODEC.128 dst, src` (R160). -/
def execTodec128 (dst src : Addr) (s : State) : Host.Outcome State Fault Refusal :=
  command (encode (.todec128 dst src)) none (some (todecFootprint .k128 dst src)) (performTodec .k128 dst src) s

/-- `TODEC.192 dst, src` (R160). -/
def execTodec192 (dst src : Addr) (s : State) : Host.Outcome State Fault Refusal :=
  command (encode (.todec192 dst src)) none (some (todecFootprint .k192 dst src)) (performTodec .k192 dst src) s

/-- `TODEC.256 dst, src` (R160). -/
def execTodec256 (dst src : Addr) (s : State) : Host.Outcome State Fault Refusal :=
  command (encode (.todec256 dst src)) none (some (todecFootprint .k256 dst src)) (performTodec .k256 dst src) s

end Sys2Proof.Machine
end

