-- ==== Sys2Proof/Machine/Dispatch.lean ====
section
/-! DEFINITION. The meaning of every command: one arm per row of the opcode table (`30_encoding.md` R52). -/

namespace Sys2Proof.Machine

def exec (i : Instr) (s : State) : Host.Outcome State Fault Refusal :=
  match i with
  | .expand128 dst src p => Sys2Proof.Machine.execExpand128 dst src p s
  | .expand192 dst src p => Sys2Proof.Machine.execExpand192 dst src p s
  | .expand256 dst src p => Sys2Proof.Machine.execExpand256 dst src p s
  | .todec128 dst src => Sys2Proof.Machine.execTodec128 dst src s
  | .todec192 dst src => Sys2Proof.Machine.execTodec192 dst src s
  | .todec256 dst src => Sys2Proof.Machine.execTodec256 dst src s
  | .rounds128 => Sys2Proof.Machine.execRounds128 s
  | .rounds192 => Sys2Proof.Machine.execRounds192 s
  | .rounds256 => Sys2Proof.Machine.execRounds256 s
  | .keybytes128 => Sys2Proof.Machine.execKeybytes128 s
  | .keybytes192 => Sys2Proof.Machine.execKeybytes192 s
  | .keybytes256 => Sys2Proof.Machine.execKeybytes256 s

end Sys2Proof.Machine
end

