-- ==== Sys2Proof/Machine/Sequencer.lean ====
section
/-! DEFINITION. The host's moves (`70_reset_and_hazards.md` R201), issuing a command word to the sequencer
(`44_dispatch_accessors.md` R150) and taking the host's next move. -/

namespace Sys2Proof.Machine

/-- One step of the command sequencer on a word (R5, R150): test 0 (refusal, before any field is examined, R180), tests 1
and 2 (the decoder), then the command with its own tests. -/
def issueWord (w : Word) (s : State) : Host.Outcome State Fault Refusal :=
  if flagF s then .next (refuse s)
  else
    match decode w with
    | .ok i => exec i s
    | .error c => .next (raiseFault c w s)

/-- `HOST.WRITE a, bytes` (R201): allowed while faulted (R180). -/
def hostWrite (a : Nat) (bytes : List Byte) (s : State) : Host.Outcome State Fault Refusal :=
  if bytes.isEmpty then .refused .emptyWrite
  else if a + bytes.length ≤ s.cfg.memBytes then .next (State.memWrite s a bytes)
  else .fault .outsideMem

/-- `HOST.READ a, n` (R201): the host gets `MEM[a .. a+n-1]`; allowed while faulted. -/
def hostRead (a n : Nat) (s : State) : Host.Outcome State Fault Refusal :=
  if a + n ≤ s.cfg.memBytes then .next { s with obs := s.obs ++ [.bytes (State.memRead s a n)] }
  else .fault .outsideMem

/-- `HOST.READREG r` (R201): the host gets the 32-bit value; allowed while faulted. -/
def hostReadReg (r : HostReg) (s : State) : Host.Outcome State Fault Refusal :=
  .next { s with obs := s.obs ++ [.reg (readReg s r)] }

/-- One move of the host (R201). -/
def hostMove (m : HostMove) (s : State) : Host.Outcome State Fault Refusal :=
  match m with
  | .reset => .next (resetEntry s)
  | .write a bytes => hostWrite a bytes s
  | .read a n => hostRead a n s
  | .readReg r => hostReadReg r s
  | .issue w => issueWord w s

/-- Take the host's next pending move off the list and make it. With none pending the run has ended (R200) and KSX holds
its state unchanged (R188). -/
def takeMove (s : State) : Host.Outcome State Fault Refusal :=
  match s.moves with
  | [] => .next s
  | m :: rest => hostMove m { s with moves := rest }

/-- `s` with the command word `w` as the host's very next move. -/
def presentWord (w : Word) (s : State) : State := { s with moves := .issue w :: s.moves }

end Sys2Proof.Machine
end

