-- ==== Sys2Proof/Machine/Step.lean ====
section
/-! DEFINITION. The step of the machine: the host's next move (`70_reset_and_hazards.md` R201). KSX fetches no
instructions (`10_state.md` R15): a command is the word the host presents next. -/

namespace Sys2Proof.Machine

/-- One step: one move of the host, which for an issued command is one step of the sequencer (R5). -/
def step (s : State) : Host.Outcome State Fault Refusal := takeMove s

/-- `s` with the instruction whose `nbits` bits are `w` (the bits above them zero) as the next move of the host, which is
where `step` takes its next instruction from (log 1). -/
def State.withFetchWord (s : State) (nbits w : Nat) : State := presentWord (BitVec.ofNat 32 (w % 2 ^ nbits)) s

end Sys2Proof.Machine
end

