-- ==== Sys2Proof/Safety.lean ====
section
/-! DEFINITION. The terms in which claims about KSX are made: the contract a command must meet to be performed
(`20_memory.md` R34 to R36, `44_dispatch_accessors.md` R150), the order in which violations are recorded
(`60_exceptions.md` R178), the invariants of the machine, and the end and observation of a run
(`70_reset_and_hazards.md` R200). They are written from the rules' tables and numbers, not from the meanings. -/

namespace Sys2Proof.Machine

/-! ## The contract of a command -/

/-- The path of an EXPAND (R54); the other commands have none. -/
def commandPath : Instr → Option Path
  | .expand128 _ _ p => some p
  | .expand192 _ _ p => some p
  | .expand256 _ _ p => some p
  | .todec128 _ _ => none
  | .todec192 _ _ => none
  | .todec256 _ _ => none
  | .rounds128 => none
  | .rounds192 => none
  | .rounds256 => none
  | .keybytes128 => none
  | .keybytes192 => none
  | .keybytes256 => none

/-- The table of R34, number for number. -/
def commandFootprint : Instr → Option Footprint
  | .expand128 dst src _ => some { src := src.toNat, slen := 16, dst := dst.toNat, dlen := 176 }
  | .expand192 dst src _ => some { src := src.toNat, slen := 24, dst := dst.toNat, dlen := 208 }
  | .expand256 dst src _ => some { src := src.toNat, slen := 32, dst := dst.toNat, dlen := 240 }
  | .todec128 dst src => some { src := src.toNat, slen := 176, dst := dst.toNat, dlen := 176 }
  | .todec192 dst src => some { src := src.toNat, slen := 208, dst := dst.toNat, dlen := 208 }
  | .todec256 dst src => some { src := src.toNat, slen := 240, dst := dst.toNat, dlen := 240 }
  | .rounds128 => none
  | .rounds192 => none
  | .rounds256 => none
  | .keybytes128 => none
  | .keybytes192 => none
  | .keybytes256 => none

/-- Address `a` lies in the `len` bytes from `base`. -/
def InBytes (base len a : Nat) : Prop := base ≤ a ∧ a < base + len

/-- Both footprints lie inside `MEM` (R35). -/
def Footprint.Fits (c : Config) (f : Footprint) : Prop :=
  f.src + f.slen ≤ c.memBytes ∧ f.dst + f.dlen ≤ c.memBytes

/-- The footprints share no byte (R36). -/
def Footprint.Disjoint (f : Footprint) : Prop := ∀ a, InBytes f.src f.slen a → ¬ InBytes f.dst f.dlen a

/-- The path of the command, if it has one, is in the instance (R174). -/
def PathOk (c : Config) (i : Instr) : Prop := ∀ p, commandPath i = some p → pathPresent c p = true

/-- The footprints of the command, if it has some, fit (R175). -/
def FitsOk (c : Config) (i : Instr) : Prop := ∀ f, commandFootprint i = some f → Footprint.Fits c f

/-- The footprints of the command, if it has some, are disjoint (R176). -/
def DisjointOk (i : Instr) : Prop := ∀ f, commandFootprint i = some f → Footprint.Disjoint f

/-- Exactly the conditions under which R150 performs a command: nothing has faulted, and no test fires. -/
def Ready (s : State) (i : Instr) : Prop :=
  flagF s = false ∧ PathOk s.cfg i ∧ FitsOk s.cfg i ∧ DisjointOk i

/-! ## Which cause is recorded (R150, R178), on the numbers of the word's fields (R51) -/

def numOp (w : Word) : Nat := w.toNat % 16
def numSel (w : Word) : Nat := w.toNat / 16 % 4
def numP (w : Word) : Nat := w.toNat / 64 % 2
def numZ7 (w : Word) : Nat := w.toNat / 128 % 2
def numSrc (w : Word) : Nat := w.toNat / 256 % 4096
def numDst (w : Word) : Nat := w.toNat / 1048576

/-- The condition of R172. -/
abbrev WordIllegal (w : Word) : Prop :=
  numOp w = 0 ∨ 5 ≤ numOp w
    ∨ numZ7 w = 1
    ∨ (2 ≤ numOp w ∧ numOp w ≤ 4 ∧ numP w = 1)
    ∨ (3 ≤ numOp w ∧ numOp w ≤ 4 ∧ (numSrc w ≠ 0 ∨ numDst w ≠ 0))

/-- The condition of R174: EXPAND on an absent path. -/
abbrev WordPathAbsent (c : Config) (w : Word) : Prop :=
  numOp w = 1 ∧ ((numP w = 0 ∧ c.hasAssist = false) ∨ (numP w = 1 ∧ c.hasEmul = false))

/-- `slen` of R34: `key_bytes = 16 + 8*sel` for EXPAND, `16 * (rounds + 1)` with `rounds = 10 + 2*sel` for TODEC. -/
def numSlen (w : Word) : Nat := if numOp w = 1 then 16 + 8 * numSel w else 16 * (11 + 2 * numSel w)

/-- `dlen` of R34. -/
def numDlen (w : Word) : Nat := 16 * (11 + 2 * numSel w)

/-- The condition of R175. -/
abbrev WordOutOfRange (c : Config) (w : Word) : Prop :=
  numOp w ≤ 2 ∧ (numSrc w + numSlen w > c.memBytes ∨ numDst w + numDlen w > c.memBytes)

/-- The condition of R176. -/
abbrev WordOverlaps (w : Word) : Prop :=
  numOp w ≤ 2 ∧ numSrc w < numDst w + numDlen w ∧ numDst w < numSrc w + numSlen w

/-- The report R150 gives a word on an instance that has not faulted: the first violation in the order of R178, or
performed. -/
def wordReport (c : Config) (w : Word) : Report :=
  if WordIllegal w then .faulted .illegalCmd
  else if numSel w = 3 then .faulted .badSelector
  else if WordPathAbsent c w then .faulted .pathUnavailable
  else if WordOutOfRange c w then .faulted .range
  else if WordOverlaps w then .faulted .overlap
  else .performed

/-! ## Faults as claims state them -/

/-- The command `i` faults with cause `c` and leaves this `STATUS`: fault entry "exactly this" (R179), and the command is
consumed (R15). -/
def FaultsWith (s : State) (i : Instr) (c : Cause) (status : Word) : Prop :=
  exec i s = .next { s with status := status, fcmd := encode i, cmdIdx := s.cmdIdx + 1, report := .faulted c }

/-- Where EXPAND or TODEC faults on a machine that has not faulted: the tests 3, 4 and 5 of R150, in that order. -/
def PrologueFaults (s : State) (i : Instr) : Prop :=
  flagF s = false →
    (¬ PathOk s.cfg i → FaultsWith s i .pathUnavailable 0x31#32)
      ∧ (PathOk s.cfg i → ¬ FitsOk s.cfg i → FaultsWith s i .range 0x41#32)
      ∧ (PathOk s.cfg i → FitsOk s.cfg i → ¬ DisjointOk i → FaultsWith s i .overlap 0x51#32)

/-- The step on the issued word `w` faults with cause `c` and leaves this `STATUS` (R179). -/
def StepFaultsWith (s : State) (w : Word) (rest : List HostMove) (c : Cause) (status : Word) : Prop :=
  step s = .next { s with moves := rest, status := status, fcmd := w, cmdIdx := s.cmdIdx + 1, report := .faulted c }

/-- Where ROUNDS (`op` 3) and KEYBYTES (`op` 4) fault: any operand or path bit, and then `sel = 3` (R152, R153). -/
def AccessorFaults (op : Nat) (s : State) : Prop :=
  ∀ (w : Word) (rest : List HostMove), s.moves = .issue w :: rest → flagF s = false → numOp w = op →
    ((numP w = 1 ∨ numZ7 w = 1 ∨ numSrc w ≠ 0 ∨ numDst w ≠ 0) → StepFaultsWith s w rest .illegalCmd 0x11#32)
      ∧ (numP w = 0 → numZ7 w = 0 → numSrc w = 0 → numDst w = 0 → numSel w = 3 →
          StepFaultsWith s w rest .badSelector 0x21#32)

/-- Where the word of a TODEC (`op` 2) faults before its prologue's later tests: the path bit or bit 7, and then `sel = 3`
(R160). -/
def TodecWordFaults (s : State) : Prop :=
  ∀ (w : Word) (rest : List HostMove), s.moves = .issue w :: rest → flagF s = false → numOp w = 2 →
    ((numP w = 1 ∨ numZ7 w = 1) → StepFaultsWith s w rest .illegalCmd 0x11#32)
      ∧ (numP w = 0 → numZ7 w = 0 → numSel w = 3 → StepFaultsWith s w rest .badSelector 0x21#32)

/-- The number of a command word with a footprint: `(dst << 20) | (src << 8) | (p << 6) | low` (R51). -/
def numWord (dst src p low : Nat) : Nat := dst * 2 ^ 20 + src * 2 ^ 8 + p * 2 ^ 6 + low

/-- The number of a key size in the selector field (R53). -/
def sizeNumber : KeySize → Nat
  | .k128 => 0
  | .k192 => 1
  | .k256 => 2

/-- The number of a path (R54). -/
def pathNumber : Path → Nat
  | .assisted => 0
  | .emulated => 1

/-- The code of a cause in the table of R171. -/
def causeNumber : Cause → Nat
  | .illegalCmd => 1
  | .badSelector => 2
  | .pathUnavailable => 3
  | .range => 4
  | .overlap => 5

/-! ## Memory as claims read it -/

/-- The word at address `a`: the four bytes from `a` (R7, R31). -/
def wordAt (s : State) (a : Nat) : KeyWord :=
  ⟨State.readByte s a, State.readByte s (a + 1), State.readByte s (a + 2), State.readByte s (a + 3)⟩

/-- The half at address `a`: the eight bytes from `a`. -/
def halfAt (s : State) (a : Nat) : Half := ⟨wordAt s a, wordAt s (a + 4)⟩

/-- Every byte of memory outside the `len` bytes from `base` reads in `t` as it did in `s`. -/
def SameOutside (base len : Nat) (s t : State) : Prop :=
  ∀ a, ¬ InBytes base len a → State.readByte t a = State.readByte s a

/-- Every byte of memory reads in `t` as it did in `s`. -/
def SameMemory (s t : State) : Prop := ∀ a, State.readByte t a = State.readByte s a

/-- The three host-visible registers are unchanged. -/
def SameRegs (s t : State) : Prop := t.res = s.res ∧ t.status = s.status ∧ t.fcmd = s.fcmd

/-- The working registers are unchanged. -/
def SameScratch (s t : State) : Prop := t.w1 = s.w1 ∧ t.w2 = s.w2 ∧ t.wt = s.wt

/-- The instance, the host's list and what the host has observed are unchanged. -/
def SameHostSide (s t : State) : Prop := t.cfg = s.cfg ∧ t.moves = s.moves ∧ t.obs = s.obs

/-- The schedule of `n + 1` round keys at `dst` in `t` is the conversion of the one at `src` in `s`, in the closed form of
R161: endpoints swapped and copied, every interior round key through `IMC` at the mirrored index. -/
def ConvertedSchedule (n dst src : Nat) (s t : State) : Prop :=
  load128 t dst = load128 s (src + 16 * n)
    ∧ load128 t (dst + 16 * n) = load128 s src
    ∧ ∀ i, 0 < i → i < n → load128 t (dst + 16 * i) = imc (load128 s (src + 16 * (n - i)))

/-- A command was performed and consumed: the step reports it and `CMDIDX` moved on by 1 (R15, R201). -/
def Performed (s t : State) : Prop := t.report = .performed ∧ t.cmdIdx = s.cmdIdx + 1

/-- What a performed EXPAND or TODEC leaves unchanged (R34, R110, R120, R135, R160): the host-visible registers, the
host's side, and every byte outside the destination footprint. -/
def WroteOnly (dst len : Nat) (s t : State) : Prop :=
  SameRegs s t ∧ SameHostSide s t ∧ SameOutside dst len s t

/-! ## Invariants -/

/-- The instance is one that R6 admits. -/
def ConfigOk (s : State) : Prop := s.cfg.wf = true

/-- The memory is in its canonical form: addresses strictly rising, all inside `MEM`. -/
def MemCanonical (s : State) : Prop := Memory.wf s.cfg.memBytes s.mem = true

/-- R12, R13: `STATUS` is 0 and then `FCMD` is 0, or `STATUS` is `1 + 16*CAUSE` with a cause of R171. -/
def FaultRecordLegal (s : State) : Prop :=
  (s.status = 0#32 ∧ s.fcmd = 0#32)
    ∨ s.status = 0x11#32 ∨ s.status = 0x21#32 ∨ s.status = 0x31#32 ∨ s.status = 0x41#32 ∨ s.status = 0x51#32

/-- R11: "the values it can ever hold". -/
def ResLegal (s : State) : Prop :=
  s.res = 0#32 ∨ s.res = 10#32 ∨ s.res = 12#32 ∨ s.res = 14#32 ∨ s.res = 16#32 ∨ s.res = 24#32 ∨ s.res = 32#32

/-! ## Runs (R200) -/

/-- The run has ended: the host's list is exhausted. -/
def RunEnded (s : State) : Prop := s.moves = []

/-- It ended successfully: `STATUS.F = 0`. -/
def RunSucceeded (s : State) : Prop := RunEnded s ∧ flagF s = false

/-- The observation of a run: the values its reading moves returned, in order, and the final `STATUS`. -/
def runObservation (s : State) : List Observation × Word := (s.obs, s.status)

/-- Every pending move is one that can be expressed (R201). -/
def MovesOk (s : State) : Prop := ∀ m ∈ s.moves, m.wf s.cfg = true

end Sys2Proof.Machine
end

