-- ==== Sys2Proof/Certificates/Slice0/Obligations.lean ====
section
/-! DEFINITION. The statements about KSX for the provers, from the numbered rules of the spec. Each is a definition of a
proposition; none is proved here. -/

open Sys2Proof Sys2Proof.Machine

/-! ## Encoding -/

/-- R51, R52: every command has a word, and the decoder reads that command, with every operand, from it. -/
def Obligations.DecodeOfEncode : Prop :=
  ∀ i : Instr, decode (encode i) = .ok i

/-- R50, R52: a command has no second word: no bit of a decoded word is dropped. -/
def Obligations.EncodeOfDecode : Prop :=
  ∀ (w : Word) (i : Instr), decode w = .ok i → encode i = w

/-- R52: a word is decoded as a command exactly when it matches a row of the table of masks and matches, and the row
is that of the command. -/
def Obligations.DecoderAcceptsExactlyTheRows : Prop :=
  (∀ w : Word, (∃ i, decode w = .ok i) ↔ Word.isCommand w = true)
    ∧ ∀ (w : Word) (i : Instr), decode w = .ok i → i.row ∈ opcodeRows ∧ i.row.matchesWord w = true

/-- R52: "The rows are mutually exclusive." -/
def Obligations.OpcodeRowsAreDisjoint : Prop :=
  ∀ (w : Word) (r r' : OpcodeRow), r ∈ opcodeRows → r' ∈ opcodeRows →
    r.matchesWord w = true → r'.matchesWord w = true → r = r'

/-- R57: the decoder first applies the ILLEGAL_CMD tests of R56, then the `sel = 3` test, and only then returns the
row that the word matches. The tests are stated on the numbers of the word's fields. -/
def Obligations.DecoderAppliesTheTestsInOrder : Prop :=
  ∀ w : Word,
    (WordIllegal w → decode w = .error .illegalCmd)
      ∧ (¬ WordIllegal w → numSel w = 3 → decode w = .error .badSelector)
      ∧ (¬ WordIllegal w → numSel w ≠ 3 → ∃ i, decode w = .ok i ∧ i.row.matchesWord w = true)

/-- Words written out from R51: one of each operation and size family, both paths, and four words that are no command.
-/
def Obligations.SampleWordsDecode : Prop :=
  decode 0x10000001#32 = .ok (.expand128 0x100#12 0x000#12 .assisted)
    ∧ decode 0x10004051#32 = .ok (.expand192 0x100#12 0x040#12 .emulated)
    ∧ decode 0x20002061#32 = .ok (.expand256 0x200#12 0x020#12 .emulated)
    ∧ decode 0x20010002#32 = .ok (.todec128 0x200#12 0x100#12)
    ∧ decode 0x2D010012#32 = .ok (.todec192 0x2D0#12 0x100#12)
    ∧ decode 0x30020022#32 = .ok (.todec256 0x300#12 0x200#12)
    ∧ decode 0x00000013#32 = .ok .rounds192
    ∧ decode 0x00000024#32 = .ok .keybytes256
    ∧ decode 0x00000000#32 = .error .illegalCmd
    ∧ decode 0x00000043#32 = .error .illegalCmd
    ∧ decode 0x000000B1#32 = .error .illegalCmd
    ∧ decode 0x10000031#32 = .error .badSelector

/-- R59, R60, on parsed lines (log 12): with operands at most 4095 every line form has the word of its fields: the
destination is written first and goes to `dst`, no suffix and `.A` are `p = 0`, `.E` is `p = 1`, the size is `sel`, and
the pseudo-instruction is the word of `EXPAND.<size>`; `.word n` is `n`. A line with a larger number has no word (log
12). The word of a line that names a command decodes to that command. -/
def Obligations.AssemblerWordsDecode : Prop :=
  (∀ (k : KeySize) (dst src : Nat), dst ≤ 4095 → src ≤ 4095 →
      assemble (.expand k none dst src) = some (BitVec.ofNat 32 (numWord dst src 0 (16 * sizeNumber k + 1)))
        ∧ assemble (.expand k (some .assisted) dst src)
            = some (BitVec.ofNat 32 (numWord dst src 0 (16 * sizeNumber k + 1)))
        ∧ assemble (.expand k (some .emulated) dst src)
            = some (BitVec.ofNat 32 (numWord dst src 1 (16 * sizeNumber k + 1)))
        ∧ assemble (.todec k dst src) = some (BitVec.ofNat 32 (numWord dst src 0 (16 * sizeNumber k + 2)))
        ∧ assemble (.expandPseudo dst src k) = some (BitVec.ofNat 32 (numWord dst src 0 (16 * sizeNumber k + 1))))
    ∧ (∀ k : KeySize, assemble (.rounds k) = some (BitVec.ofNat 32 (numWord 0 0 0 (16 * sizeNumber k + 3)))
        ∧ assemble (.keybytes k) = some (BitVec.ofNat 32 (numWord 0 0 0 (16 * sizeNumber k + 4))))
    ∧ (∀ n : Nat, n < 2 ^ 32 → assemble (.word n) = some (BitVec.ofNat 32 n))
    ∧ (∀ (k : KeySize) (suffix : Option Path) (dst src : Nat), 4095 < dst ∨ 4095 < src →
        assemble (.expand k suffix dst src) = none ∧ assemble (.todec k dst src) = none
          ∧ assemble (.expandPseudo dst src k) = none)
    ∧ (∀ n : Nat, 2 ^ 32 ≤ n → assemble (.word n) = none)
    ∧ ∀ (l : AsmLine) (i : Instr) (w : Word), assemble l = some w → l.command = some i → decode w = .ok i

/-! ## The step and the prologue -/

/-- A step runs the decoded instruction (R5, R150): where the host's next move issues a word that decodes to `i`, the
step is `exec` of `i` on the state with that move taken off the host's list, and nothing else is put around it. -/
def Obligations.StepRunsTheDecodedCommand : Prop :=
  ∀ (s : State) (w : Word) (rest : List HostMove) (i : Instr),
    s.moves = .issue w :: rest → decode w = .ok i → step s = exec i { s with moves := rest }

/-- R172, R173, R179: an illegal word faults with `STATUS = 0x11`, a legal one with `sel = 3` with `STATUS = 0x21`;
`FCMD` is the word; nothing else of the machine changes. -/
def Obligations.UndecodableWordsFault : Prop :=
  ∀ (s : State) (w : Word) (rest : List HostMove), s.moves = .issue w :: rest → flagF s = false →
    (WordIllegal w → step s = .next { s with moves := rest, status := 0x11#32, fcmd := w,
                                             cmdIdx := s.cmdIdx + 1, report := .faulted .illegalCmd })
      ∧ (¬ WordIllegal w → numSel w = 3 →
          step s = .next { s with moves := rest, status := 0x21#32, fcmd := w,
                                  cmdIdx := s.cmdIdx + 1, report := .faulted .badSelector })

/-- R180: while `STATUS.F = 1` every command word and every command is refused: no state of the machine changes; the
step reports "refused". The host's writes and reads go on as before. The model's choices: the list of moves (log 1), the
report (log 5), and that a refused word leaves the list although R15 does not count it as consumed (log 9). -/
def Obligations.FaultedMachineRefusesEveryCommand : Prop :=
  (∀ (s : State) (w : Word) (rest : List HostMove), s.moves = .issue w :: rest → flagF s = true →
      step s = .next { s with moves := rest, report := .refused })
    ∧ (∀ (s : State) (i : Instr), flagF s = true → exec i s = .next { s with report := .refused })
    ∧ ∀ (s : State) (a n : Nat) (bytes : List Byte) (r : HostReg) (rest : List HostMove), flagF s = true →
        (s.moves = .write a bytes :: rest → bytes ≠ [] → a + bytes.length ≤ s.cfg.memBytes →
            step s = .next (State.memWrite { s with moves := rest } a bytes))
          ∧ (s.moves = .read a n :: rest → a + n ≤ s.cfg.memBytes →
            step s = .next { s with moves := rest, obs := s.obs ++ [.bytes (State.memRead s a n)] })
          ∧ (s.moves = .readReg r :: rest →
            step s = .next { s with moves := rest, obs := s.obs ++ [.reg (readReg s r)] })

/-- R174: EXPAND on a path the instance does not have faults with `STATUS = 0x31`. -/
def Obligations.ExpandFaultsOnAbsentPath : Prop :=
  ∀ (s : State) (i : Instr) (p : Path), commandPath i = some p → flagF s = false →
    ((p = .assisted ∧ s.cfg.hasAssist = false) ∨ (p = .emulated ∧ s.cfg.hasEmul = false)) →
    exec i s = .next { s with status := 0x31#32, fcmd := encode i,
                              cmdIdx := s.cmdIdx + 1, report := .faulted .pathUnavailable }

/-- R175: a footprint that does not fit faults with `STATUS = 0x41`. -/
def Obligations.OutOfRangeFootprintFaults : Prop :=
  ∀ (s : State) (i : Instr) (f : Footprint), commandFootprint i = some f → flagF s = false → PathOk s.cfg i →
    (f.src + f.slen > s.cfg.memBytes ∨ f.dst + f.dlen > s.cfg.memBytes) →
    exec i s = .next { s with status := 0x41#32, fcmd := encode i,
                              cmdIdx := s.cmdIdx + 1, report := .faulted .range }

/-- R176: footprints that fit and share a byte fault with `STATUS = 0x51`. -/
def Obligations.OverlappingFootprintsFault : Prop :=
  ∀ (s : State) (i : Instr) (f : Footprint), commandFootprint i = some f → flagF s = false → PathOk s.cfg i →
    Footprint.Fits s.cfg f → f.src < f.dst + f.dlen → f.dst < f.src + f.slen →
    exec i s = .next { s with status := 0x51#32, fcmd := encode i,
                              cmdIdx := s.cmdIdx + 1, report := .faulted .overlap }

/-- R150, R178: the step on an issued word reports "refused" when `STATUS.F = 1`, else exactly the first violation in
the order ILLEGAL_CMD, BAD_SELECTOR, PATH_UNAVAILABLE, RANGE, OVERLAP, tested on the numbers of the word's fields and
the configuration alone, and performs the command when there is none; unless it performs it, it writes no byte of
`MEM` and does not write `RES`. The model's choices: the list of moves (log 1), the report (log 5), and that a refused
word leaves the list (log 9). -/
def Obligations.FirstViolationIsReported : Prop :=
  ∀ (s : State) (w : Word) (rest : List HostMove), s.moves = .issue w :: rest →
    ∃ t, step s = .next t ∧ t.moves = rest
      ∧ t.report = (if flagF s then .refused else wordReport s.cfg w)
      ∧ (t.report ≠ .performed → t.mem = s.mem ∧ SameMemory s t ∧ t.res = s.res)

/-- R150: a command is performed exactly when nothing has faulted, its path is present, and its footprints fit and
share no byte; whatever the verdict, the step ends in a next state. -/
def Obligations.PerformedExactlyWhenReady : Prop :=
  ∀ (s : State) (i : Instr), ∃ t, exec i s = .next t ∧ (t.report = .performed ↔ Ready s i)

/-- R179: a step that raises a fault with cause `c` on the word `w` does exactly this: `STATUS` becomes `16*c + 1` and
`FCMD` becomes `w`; nothing else of the machine changes; and no fault was recorded before, so it is the first since
reset. -/
def Obligations.FaultEntryIsExact : Prop :=
  ∀ (s t : State) (w : Word) (rest : List HostMove) (c : Cause), s.moves = .issue w :: rest → step s = .next t →
    t.report = .faulted c →
    flagF s = false
      ∧ t = { s with moves := rest, status := BitVec.ofNat 32 (16 * causeNumber c + 1), fcmd := w,
                     cmdIdx := s.cmdIdx + 1, report := .faulted c }

/-! ## EXPAND -/

/-- R110: the word of EXPAND.128; where it faults; and, when its contract is met, it is performed, writes the key as
round key 0 and each later round key by the pseudocode on its one path, and nothing else. -/
def Obligations.Expand128RunsThePseudocode : Prop :=
  ∀ (s : State) (dst src : Addr) (p : Path),
    (encode (.expand128 dst src p)).toNat = numWord dst.toNat src.toNat (pathNumber p) 0x01
      ∧ PrologueFaults s (.expand128 dst src p)
      ∧ (Ready s (.expand128 dst src p) →
    ∃ t, exec (.expand128 dst src p) s = .next t ∧ Performed s t ∧ WroteOnly dst.toNat 176 s t
      ∧ load128 t dst.toNat = load128 s src.toNat
      ∧ ∀ i, 1 ≤ i → i ≤ 10 →
          load128 t (dst.toNat + 16 * i)
            = V128.xor (ripple (load128 t (dst.toNat + 16 * (i - 1))))
                (subrot (load128 t (dst.toNat + 16 * (i - 1))) (rcon i) p))

/-- R113, which the spec marks as derived: on both paths the 44 words of the schedule meet the recurrence of a
four-word key. -/
def Obligations.Expand128MeetsTheRecurrence : Prop :=
  ∀ (s : State) (dst src : Addr) (p : Path), Ready s (.expand128 dst src p) →
    ∃ t, exec (.expand128 dst src p) s = .next t
      ∧ (∀ j, j < 4 → wordAt t (dst.toNat + 4 * j) = wordAt s (src.toNat + 4 * j))
      ∧ ∀ n, 4 ≤ n → n ≤ 43 →
          wordAt t (dst.toNat + 4 * n)
            = if n % 4 = 0 then
                KeyWord.xor (wordAt t (dst.toNat + 4 * (n - 4)))
                  (KeyWord.xor (subWord (rotWord (wordAt t (dst.toNat + 4 * (n - 1))))) (rcWord (rcon (n / 4))))
              else KeyWord.xor (wordAt t (dst.toNat + 4 * (n - 4))) (wordAt t (dst.toNat + 4 * (n - 1)))

/-- R120, R121, R128: the word of EXPAND.192; where it faults; and, when its contract is met, it is performed on
either path, writes nothing but its destination footprint and the working registers, and the key's 24 bytes stand
unchanged at the start of the schedule. -/
def Obligations.Expand192MeetsItsContract : Prop :=
  ∀ (s : State) (dst src : Addr) (p : Path),
    (encode (.expand192 dst src p)).toNat = numWord dst.toNat src.toNat (pathNumber p) 0x11
      ∧ PrologueFaults s (.expand192 dst src p)
      ∧ (Ready s (.expand192 dst src p) →
    ∃ t, exec (.expand192 dst src p) s = .next t ∧ Performed s t ∧ WroteOnly dst.toNat 208 s t
      ∧ ∀ b, b < 24 → State.readByte t (dst.toNat + b) = State.readByte s (src.toNat + b))

/-- R122, R123: EXPAND.192 on the assisted path makes the pairs `(A_n, B_n)` from the key read of R121 by the assist
step of R122 and writes the thirteen slots of R123's table, and nothing else. -/
def Obligations.Expand192AssistedFillsTheSlots : Prop :=
  ∀ (s : State) (dst src : Addr), Ready s (.expand192 dst src .assisted) →
    ∃ (t : State) (A B : Nat → V128), exec (.expand192 dst src .assisted) s = .next t
      ∧ Performed s t ∧ WroteOnly dst.toNat 208 s t
      ∧ A 0 = load128 s src.toNat ∧ B 0 = load64z s (src.toNat + 16)
      ∧ (∀ n, n < 8 →
          A (n + 1) = V128.xor (ripple (A n)) (bcastw (keygenAssist (B n) (rcon (n + 1))) 1)
            ∧ B (n + 1) = V128.xor (V128.xor (B n) (sllw (B n) 1)) (bcastw (A (n + 1)) 3))
      ∧ load128 t dst.toNat = A 0
      ∧ ∀ m, m < 4 →
          load128 t (dst.toNat + 16 * (3 * m + 1)) = packLL (B (2 * m)) (A (2 * m + 1))
            ∧ load128 t (dst.toNat + 16 * (3 * m + 2)) = packHL (A (2 * m + 1)) (B (2 * m + 1))
            ∧ load128 t (dst.toNat + 16 * (3 * m + 3)) = A (2 * m + 2)

/-- R125: EXPAND.192 on the emulated path writes the 26 halves of the pseudocode, and nothing else. -/
def Obligations.Expand192EmulatedFillsTheHalves : Prop :=
  ∀ (s : State) (dst src : Addr), Ready s (.expand192 dst src .emulated) →
    ∃ (t : State) (h : Nat → Half), exec (.expand192 dst src .emulated) s = .next t
      ∧ Performed s t ∧ WroteOnly dst.toNat 208 s t
      ∧ (∀ q, q < 26 → halfAt t (dst.toNat + 8 * q) = h q)
      ∧ (∀ q, q < 3 → h q = halfAt s (src.toNat + 8 * q))
      ∧ ∀ n, 1 ≤ n → n ≤ 8 →
          h (3 * n)
              = Half.xor (hrip (h (3 * n - 3)))
                  (V128.lo (V128.xor
                    (fwdLast (perm (V128.ofHalves (h (3 * n - 1)) (h (3 * n - 1))) rotMask) V128.zero)
                    (bcastRc (rcon n))))
          ∧ h (3 * n + 1) = hrip (Half.xor (h (3 * n - 2)) (carry (h (3 * n))))
          ∧ (n < 8 → h (3 * n + 2) = hrip (Half.xor (h (3 * n - 1)) (carry (h (3 * n + 1)))))

/-- R126, which the spec marks as derived: on both paths the 52 words of the schedule meet the recurrence of a
six-word key. -/
def Obligations.Expand192MeetsTheRecurrence : Prop :=
  ∀ (s : State) (dst src : Addr) (p : Path), Ready s (.expand192 dst src p) →
    ∃ t, exec (.expand192 dst src p) s = .next t
      ∧ (∀ j, j < 6 → wordAt t (dst.toNat + 4 * j) = wordAt s (src.toNat + 4 * j))
      ∧ ∀ n, 6 ≤ n → n ≤ 51 →
          wordAt t (dst.toNat + 4 * n)
            = if n % 6 = 0 then
                KeyWord.xor (wordAt t (dst.toNat + 4 * (n - 6)))
                  (KeyWord.xor (subWord (rotWord (wordAt t (dst.toNat + 4 * (n - 1))))) (rcWord (rcon (n / 6))))
              else KeyWord.xor (wordAt t (dst.toNat + 4 * (n - 6))) (wordAt t (dst.toNat + 4 * (n - 1)))

/-- R135: the word of EXPAND.256; where it faults; and, when its contract is met, it is performed, writes the key's
halves as round keys 0 and 1, the even round keys by type A steps (R136) and the odd ones by type B steps (R137), none
after the last (R138), and nothing else. -/
def Obligations.Expand256RunsThePseudocode : Prop :=
  ∀ (s : State) (dst src : Addr) (p : Path),
    (encode (.expand256 dst src p)).toNat = numWord dst.toNat src.toNat (pathNumber p) 0x21
      ∧ PrologueFaults s (.expand256 dst src p)
      ∧ (Ready s (.expand256 dst src p) →
    ∃ t, exec (.expand256 dst src p) s = .next t ∧ Performed s t ∧ WroteOnly dst.toNat 240 s t
      ∧ load128 t dst.toNat = load128 s src.toNat
      ∧ load128 t (dst.toNat + 16) = load128 s (src.toNat + 16)
      ∧ ∀ n, 1 ≤ n → n ≤ 7 →
          load128 t (dst.toNat + 16 * (2 * n))
              = V128.xor (ripple (load128 t (dst.toNat + 16 * (2 * n - 2))))
                  (subrot (load128 t (dst.toNat + 16 * (2 * n - 1))) (rcon n) p)
            ∧ (2 * n < 14 →
                load128 t (dst.toNat + 16 * (2 * n + 1))
                  = V128.xor (ripple (load128 t (dst.toNat + 16 * (2 * n - 1))))
                      (subonly (load128 t (dst.toNat + 16 * (2 * n))) p)))

/-- R140, which the spec marks as derived: on both paths the 60 words of the schedule meet the recurrence of an
eight-word key. -/
def Obligations.Expand256MeetsTheRecurrence : Prop :=
  ∀ (s : State) (dst src : Addr) (p : Path), Ready s (.expand256 dst src p) →
    ∃ t, exec (.expand256 dst src p) s = .next t
      ∧ (∀ j, j < 8 → wordAt t (dst.toNat + 4 * j) = wordAt s (src.toNat + 4 * j))
      ∧ ∀ n, 8 ≤ n → n ≤ 59 →
          wordAt t (dst.toNat + 4 * n)
            = if n % 8 = 0 then
                KeyWord.xor (wordAt t (dst.toNat + 4 * (n - 8)))
                  (KeyWord.xor (subWord (rotWord (wordAt t (dst.toNat + 4 * (n - 1))))) (rcWord (rcon (n / 8))))
              else if n % 8 = 4 then
                KeyWord.xor (wordAt t (dst.toNat + 4 * (n - 8))) (subWord (wordAt t (dst.toNat + 4 * (n - 1))))
              else KeyWord.xor (wordAt t (dst.toNat + 4 * (n - 8))) (wordAt t (dst.toNat + 4 * (n - 1)))

/-- R113, R127, R141, which the spec marks as derived: on an instance with both paths the assisted and the emulated
form of an EXPAND leave the same memory, byte for byte. -/
def Obligations.PathsWriteTheSameBytes : Prop :=
  ∀ (s : State) (k : KeySize) (dst src : Addr),
    Ready s (dispatchExpand k dst src .assisted) → Ready s (dispatchExpand k dst src .emulated) →
    ∃ t u, exec (dispatchExpand k dst src .assisted) s = .next t
      ∧ exec (dispatchExpand k dst src .emulated) s = .next u ∧ t.mem = u.mem ∧ SameMemory t u

/-- R34, R179, R180: what any EXPAND leaves unchanged, performed, faulting or refused: `RES`, the host's side, and
every byte outside its destination footprint; `STATUS` and `FCMD` change by fault entry only. -/
def Obligations.ExpandFrame : Prop :=
  ∀ (s t : State) (dst src : Addr) (p : Path),
    (exec (.expand128 dst src p) s = .next t →
        t.res = s.res ∧ SameHostSide s t ∧ t.resets = s.resets ∧ SameOutside dst.toNat 176 s t
          ∧ ((∃ c, t.report = .faulted c) ∨ (t.status = s.status ∧ t.fcmd = s.fcmd)))
      ∧ (exec (.expand192 dst src p) s = .next t →
        t.res = s.res ∧ SameHostSide s t ∧ t.resets = s.resets ∧ SameOutside dst.toNat 208 s t
          ∧ ((∃ c, t.report = .faulted c) ∨ (t.status = s.status ∧ t.fcmd = s.fcmd)))
      ∧ (exec (.expand256 dst src p) s = .next t →
        t.res = s.res ∧ SameHostSide s t ∧ t.resets = s.resets ∧ SameOutside dst.toNat 240 s t
          ∧ ((∃ c, t.report = .faulted c) ∨ (t.status = s.status ∧ t.fcmd = s.fcmd)))

/-! ## TODEC -/

/-- R160, R161: the word of TODEC; where it faults; and, when its contract is met, it is performed and writes at `dst`
the conversion of the schedule at `src`, and nothing else, for each of the three sizes. -/
def Obligations.TodecWritesTheConvertedSchedule : Prop :=
  ∀ (s : State) (dst src : Addr),
    ((encode (.todec128 dst src)).toNat = numWord dst.toNat src.toNat 0 0x02 ∧ PrologueFaults s (.todec128 dst src)
        ∧ (Ready s (.todec128 dst src) → ∃ t, exec (.todec128 dst src) s = .next t ∧ Performed s t
          ∧ WroteOnly dst.toNat 176 s t ∧ ConvertedSchedule 10 dst.toNat src.toNat s t))
      ∧ ((encode (.todec192 dst src)).toNat = numWord dst.toNat src.toNat 0 0x12 ∧ PrologueFaults s (.todec192 dst src)
        ∧ (Ready s (.todec192 dst src) → ∃ t, exec (.todec192 dst src) s = .next t ∧ Performed s t
          ∧ WroteOnly dst.toNat 208 s t ∧ ConvertedSchedule 12 dst.toNat src.toNat s t))
      ∧ ((encode (.todec256 dst src)).toNat = numWord dst.toNat src.toNat 0 0x22 ∧ PrologueFaults s (.todec256 dst src)
        ∧ (Ready s (.todec256 dst src) → ∃ t, exec (.todec256 dst src) s = .next t ∧ Performed s t
          ∧ WroteOnly dst.toNat 240 s t ∧ ConvertedSchedule 14 dst.toNat src.toNat s t))
      ∧ TodecWordFaults s

/-- R34, R179, R180: what any TODEC leaves unchanged, performed, faulting or refused. -/
def Obligations.TodecFrame : Prop :=
  ∀ (s t : State) (dst src : Addr),
    (exec (.todec128 dst src) s = .next t →
        t.res = s.res ∧ SameHostSide s t ∧ t.resets = s.resets ∧ SameOutside dst.toNat 176 s t
          ∧ ((∃ c, t.report = .faulted c) ∨ (t.status = s.status ∧ t.fcmd = s.fcmd)))
      ∧ (exec (.todec192 dst src) s = .next t →
        t.res = s.res ∧ SameHostSide s t ∧ t.resets = s.resets ∧ SameOutside dst.toNat 208 s t
          ∧ ((∃ c, t.report = .faulted c) ∨ (t.status = s.status ∧ t.fcmd = s.fcmd)))
      ∧ (exec (.todec256 dst src) s = .next t →
        t.res = s.res ∧ SameHostSide s t ∧ t.resets = s.resets ∧ SameOutside dst.toNat 240 s t
          ∧ ((∃ c, t.report = .faulted c) ∨ (t.status = s.status ∧ t.fcmd = s.fcmd)))

/-- R163, which the spec marks as derived: the converter is linear over `^`, position by position, and maps the
all-zero schedule to itself. -/
def Obligations.ConvertIsLinear : Prop :=
  ∀ k : KeySize,
    (∀ a b : List V128, a.length = schedLen k → b.length = schedLen k →
        convert (List.zipWith V128.xor a b) (rounds k)
          = List.zipWith V128.xor (convert a (rounds k)) (convert b (rounds k)))
      ∧ convert (List.replicate (schedLen k) V128.zero) (rounds k) = List.replicate (schedLen k) V128.zero

/-! ## ROUNDS and KEYBYTES -/

/-- R152: the words of ROUNDS; it leaves 10, 12 or 14 in `RES` and changes nothing else of the machine; where it
faults. -/
def Obligations.RoundsWritesRes : Prop :=
  (encode .rounds128 = 0x00000003#32 ∧ encode .rounds192 = 0x00000013#32 ∧ encode .rounds256 = 0x00000023#32)
    ∧ ∀ s : State,
      (flagF s = false →
        exec .rounds128 s = .next { s with res := 10#32, cmdIdx := s.cmdIdx + 1, report := .performed }
          ∧ exec .rounds192 s = .next { s with res := 12#32, cmdIdx := s.cmdIdx + 1, report := .performed }
          ∧ exec .rounds256 s = .next { s with res := 14#32, cmdIdx := s.cmdIdx + 1, report := .performed })
        ∧ AccessorFaults 3 s

/-- R153: the words of KEYBYTES; it leaves 16, 24 or 32 in `RES` and changes nothing else of the machine; where it
faults. -/
def Obligations.KeybytesWritesRes : Prop :=
  (encode .keybytes128 = 0x00000004#32 ∧ encode .keybytes192 = 0x00000014#32 ∧ encode .keybytes256 = 0x00000024#32)
    ∧ ∀ s : State,
      (flagF s = false →
        exec .keybytes128 s = .next { s with res := 16#32, cmdIdx := s.cmdIdx + 1, report := .performed }
          ∧ exec .keybytes192 s = .next { s with res := 24#32, cmdIdx := s.cmdIdx + 1, report := .performed }
          ∧ exec .keybytes256 s = .next { s with res := 32#32, cmdIdx := s.cmdIdx + 1, report := .performed })
        ∧ AccessorFaults 4 s

/-- R152, R153: what ROUNDS and KEYBYTES leave unchanged, performed or refused: everything but `RES`. -/
def Obligations.AccessorFrame : Prop :=
  ∀ (s t : State) (i : Instr),
    (i = .rounds128 ∨ i = .rounds192 ∨ i = .rounds256 ∨ i = .keybytes128 ∨ i = .keybytes192 ∨ i = .keybytes256) →
    exec i s = .next t →
    t.mem = s.mem ∧ SameMemory s t ∧ t.status = s.status ∧ t.fcmd = s.fcmd ∧ SameScratch s t ∧ SameHostSide s t

/-! ## The datapath -/

/-- R72: every entry of `SBOX` is the formula's value at the inverse of its index, the entry at 0 is the formula's
value at 0, and the table is a permutation. -/
def Obligations.SboxIsTheFormula : Prop :=
  (∀ a b : Byte, gmul a b = 1#8 →
      sbox a = b ^^^ b.rotateLeft 1 ^^^ b.rotateLeft 2 ^^^ b.rotateLeft 3 ^^^ b.rotateLeft 4 ^^^ 0x63#8)
    ∧ sbox 0#8 = 0x63#8
    ∧ (∀ a : Byte, a ≠ 0#8 → ∃ b : Byte, gmul a b = 1#8)
    ∧ ∀ a b : Byte, sbox a = sbox b → a = b

/-- R73: `INV_SBOX` is the inverse permutation of `SBOX`. -/
def Obligations.InvSboxInverts : Prop :=
  (∀ a : Byte, invSbox (sbox a) = a) ∧ ∀ a : Byte, sbox (invSbox a) = a

/-- R71: the laws of the field: `gmul` is commutative and associative, distributes over `^`, has 1 and 0, and every
non-zero byte has exactly one inverse. -/
def Obligations.FieldLaws : Prop :=
  (∀ a b : Byte, gmul a b = gmul b a)
    ∧ (∀ a b c : Byte, gmul (gmul a b) c = gmul a (gmul b c))
    ∧ (∀ a b c : Byte, gmul a (b ^^^ c) = gmul a b ^^^ gmul a c)
    ∧ (∀ a : Byte, gmul a 1#8 = a ∧ gmul a 0#8 = 0#8)
    ∧ ∀ a : Byte, a ≠ 0#8 → ∃ b, gmul a b = 1#8 ∧ ∀ c, gmul a c = 1#8 → c = b

/-- R77: `InvMixColumns` and `MixColumns` are inverse to each other, and both are linear over `^` (R76, R77). -/
def Obligations.InvMixColumnsInverts : Prop :=
  (∀ v : V128, invMixColumns (mixColumns v) = v)
    ∧ (∀ u v : V128, mixColumns (V128.xor u v) = V128.xor (mixColumns u) (mixColumns v))
    ∧ ∀ u v : V128, invMixColumns (V128.xor u v) = V128.xor (invMixColumns u) (invMixColumns v)

/-- R75: `ShiftRows` moves the byte of row `r`, column `c + r` to column `c`, and `InvShiftRows` that of column `c -
r`; each undoes the other, and `ShiftRows` leaves a vector of four equal columns alone. -/
def Obligations.ShiftRowsRotatesRows : Prop :=
  ∀ v : V128,
    (∀ r c : Fin 4, KeyWord.byte (V128.word (shiftRows v) c) r = KeyWord.byte (V128.word v (c + r)) r
        ∧ KeyWord.byte (V128.word (invShiftRows v) c) r = KeyWord.byte (V128.word v (c - r)) r)
      ∧ invShiftRows (shiftRows v) = v ∧ shiftRows (invShiftRows v) = v
      ∧ (v.w0 = v.w1 → v.w1 = v.w2 → v.w2 = v.w3 → shiftRows v = v)

/-- R96, which the spec marks as derived: against the zero key, the forward last round of a vector with four equal
columns is `SubBytes` of it; the full forward round is not. -/
def Obligations.LastRoundOfEqualColumnsIsSubBytes : Prop :=
  (∀ x : KeyWord, fwdLast (V128.ofWords (fun _ => x)) V128.zero = subBytes (V128.ofWords (fun _ => x)))
    ∧ fwdRound (V128.ofWords (fun _ => ⟨0xcf#8, 0x4f#8, 0x3c#8, 0x09#8⟩)) V128.zero
        = V128.ofWords (fun _ => ⟨0x72#8, 0xbe#8, 0xc0#8, 0xe8#8⟩)
    ∧ subBytes (V128.ofWords (fun _ => ⟨0xcf#8, 0x4f#8, 0x3c#8, 0x09#8⟩))
        = V128.ofWords (fun _ => ⟨0x8a#8, 0x84#8, 0xeb#8, 0x01#8⟩)

/-- R94, R95, where the spec marks the equality of the paths as derived: on both paths every word of `SUBROT` is
`SubWord(RotWord(prev.w[3])) ^ RcWord(rc)` and every word of `SUBONLY` is `SubWord(prev.w[3])`. -/
def Obligations.SubstitutionStepsOnBothPaths : Prop :=
  ∀ (prev : V128) (rc : Byte) (p : Path) (j : Fin 4),
    V128.word (subrot prev rc p) j = KeyWord.xor (subWord (rotWord prev.w3)) (rcWord rc)
      ∧ V128.word (subonly prev p) j = subWord prev.w3

/-- R87, where the spec marks it as derived: `RCON[1] = 1` and `RCON[n+1] = xtime(RCON[n])`. -/
def Obligations.RconDoubles : Prop :=
  rcon 1 = 0x01#8 ∧ ∀ n, 1 ≤ n → n ≤ 9 → rcon (n + 1) = xtime (rcon n)

/-- R90, where the spec marks the second form as derived: word `j` of `RIPPLE(v)` is the exclusive-or of the words of
`v` up to `j`, and the same value results from `t <- t ^ SLLW(t, 1)` three times. -/
def Obligations.RippleIsThePrefixXor : Prop :=
  ∀ v : V128,
    ripple v = ⟨v.w0, KeyWord.xor v.w0 v.w1, KeyWord.xor (KeyWord.xor v.w0 v.w1) v.w2,
        KeyWord.xor (KeyWord.xor (KeyWord.xor v.w0 v.w1) v.w2) v.w3⟩
      ∧ (let f := fun t : V128 => V128.xor t (sllw t 1)
         f (f (f v)) = ripple v)

/-! ## Both schedules together -/

/-- R164: for every key of every size, either path, and every block, `DECRYPT` with the converted schedule of the
expansion recovers what `ENCRYPT` with the expansion made of the block. -/
def Obligations.InverseConsistency : Prop :=
  ∀ (p : Path) (k0 k1 pt : V128),
    decryptBlock (convert (expand128 p k0) 10) 10 (encryptBlock (expand128 p k0) 10 pt) = pt
      ∧ decryptBlock (convert (expand192 p k0 k1) 12) 12 (encryptBlock (expand192 p k0 k1) 12 pt) = pt
      ∧ decryptBlock (convert (expand256 p k0 k1) 14) 14 (encryptBlock (expand256 p k0 k1) 14 pt) = pt

/-- R164 on the machine (with R39: TODEC reads what EXPAND wrote): an EXPAND and then the TODEC of the same size on
its schedule leave in memory an encryption schedule and a decryption schedule that undo each other on every block. -/
def Obligations.ExpandThenTodecDecrypts : Prop :=
  ∀ (s : State) (k : KeySize) (dst src dst2 : Addr) (p : Path),
    Ready s (dispatchExpand k dst src p) → Ready s (todecOf k dst2 dst) →
    ∃ t u, exec (dispatchExpand k dst src p) s = .next t ∧ exec (todecOf k dst2 dst) t = .next u
      ∧ Performed s t ∧ Performed t u
      ∧ loadSchedule u dst.toNat (schedLen k) = loadSchedule t dst.toNat (schedLen k)
      ∧ ∀ pt : V128,
          decryptBlock (loadSchedule u dst2.toNat (schedLen k)) (rounds k)
            (encryptBlock (loadSchedule u dst.toNat (schedLen k)) (rounds k) pt) = pt

/-! ## The host -/

/-- R201: `HOST.WRITE a, bytes` inside `MEM` stores `bytes[i]` at `a + i`, faulted or not, and changes no other byte
and no register. -/
def Obligations.HostWriteStores : Prop :=
  ∀ (s : State) (a : Nat) (bytes : List Byte) (rest : List HostMove), s.moves = .write a bytes :: rest →
    bytes ≠ [] → a + bytes.length ≤ s.cfg.memBytes →
    ∃ t, step s = .next t ∧ t.moves = rest
      ∧ (∀ i (h : i < bytes.length), State.readByte t (a + i) = bytes[i])
      ∧ SameOutside a bytes.length s t ∧ SameRegs s t ∧ SameScratch s t
      ∧ t.cfg = s.cfg ∧ t.obs = s.obs ∧ t.cmdIdx = s.cmdIdx ∧ t.report = s.report

/-- R201, R180: `HOST.READ` inside `MEM` returns the bytes in address order and `HOST.READREG` the register's value,
faulted or not; nothing of the machine changes. -/
def Obligations.HostReadsReturn : Prop :=
  (∀ (s : State) (a n : Nat) (rest : List HostMove), s.moves = .read a n :: rest → a + n ≤ s.cfg.memBytes →
      ∃ bs : List Byte, bs.length = n ∧ (∀ i (h : i < bs.length), bs[i] = State.readByte s (a + i))
        ∧ step s = .next { s with moves := rest, obs := s.obs ++ [.bytes bs] })
    ∧ ∀ (s : State) (rest : List HostMove),
        (s.moves = .readReg .res :: rest → step s = .next { s with moves := rest, obs := s.obs ++ [.reg s.res] })
          ∧ (s.moves = .readReg .status :: rest →
              step s = .next { s with moves := rest, obs := s.obs ++ [.reg s.status] })
          ∧ (s.moves = .readReg .fcmd :: rest →
              step s = .next { s with moves := rest, obs := s.obs ++ [.reg s.fcmd] })

/-- R191: `HOST.RESET` leaves `RES`, `STATUS`, `FCMD` and `CMDIDX` zero, from every state. That every byte of `MEM`
then reads as the free value of the new reset is the model's form of "unspecified" (log 3). -/
def Obligations.HostResetClears : Prop :=
  ∀ (s : State) (rest : List HostMove), s.moves = .reset :: rest →
    ∃ t, step s = .next t ∧ t.moves = rest ∧ t.obs = s.obs ∧ t.cfg = s.cfg
      ∧ t.res = 0#32 ∧ t.status = 0#32 ∧ t.fcmd = 0#32 ∧ t.cmdIdx = 0
      ∧ ∀ a, State.readByte t a = Config.resetByte (s.resets + 1) a

/-- A host access outside `MEM` and an empty write stop the model by name (the model's choice, log 6: R201 gives no
such move). -/
def Obligations.InexpressibleMovesStop : Prop :=
  ∀ (s : State) (a n : Nat) (bytes : List Byte) (rest : List HostMove),
    (s.moves = .read a n :: rest → s.cfg.memBytes < a + n → step s = .fault .outsideMem)
      ∧ (s.moves = .write a bytes :: rest → bytes ≠ [] → s.cfg.memBytes < a + bytes.length →
          step s = .fault .outsideMem)
      ∧ (s.moves = .write a [] :: rest → step s = .refused .emptyWrite)

/-- R199, R200: a run whose moves can all be expressed ends after as many steps as it has moves; with none left the
step changes nothing (R188; the model's form, log 8). -/
def Obligations.RunsEnd : Prop :=
  (∀ s : State, MovesOk s → ∃ t, core.run s.moves.length s = .next t ∧ RunEnded t)
    ∧ ∀ s : State, RunEnded s → step s = .next s

/-! ## Invariants and whole-machine rules -/

/-- Every step keeps the memory in its canonical form: addresses strictly rising and inside `MEM`. -/
def Obligations.MemoryStaysCanonical : Prop :=
  ∀ s t : State, MemCanonical s → step s = .next t → MemCanonical t

/-- R12, R13: every step keeps the fault record legal: `STATUS` 0 with `FCMD` 0, or `STATUS` one of 0x11, 0x21, 0x31,
0x41, 0x51. -/
def Obligations.FaultRecordStaysLegal : Prop :=
  ∀ s t : State, FaultRecordLegal s → step s = .next t → FaultRecordLegal t

/-- R11: every step keeps `RES` one of the values it can ever hold. -/
def Obligations.ResStaysLegal : Prop :=
  ∀ s t : State, ResLegal s → step s = .next t → ResLegal t

/-- The state after reset (R20, R191) meets the invariants, and `RES`, `STATUS`, `FCMD` are 0. -/
def Obligations.ResetMeetsTheInvariants : Prop :=
  ConfigOk State.reset ∧ MemCanonical State.reset ∧ FaultRecordLegal State.reset ∧ ResLegal State.reset
    ∧ State.reset.res = 0#32 ∧ State.reset.status = 0#32 ∧ State.reset.fcmd = 0#32

/-- R12, R189: `STATUS.F` is sticky: a step of a faulted machine that is not `HOST.RESET` changes neither `STATUS` nor
`FCMD` nor `RES`. -/
def Obligations.OnlyResetClearsAFault : Prop :=
  ∀ s t : State, flagF s = true → step s = .next t → s.moves.head? ≠ some .reset →
    t.status = s.status ∧ t.fcmd = s.fcmd ∧ t.res = s.res ∧ flagF t = true

/-- R6: no step changes the instance's parameters. -/
def Obligations.ParametersNeverChange : Prop :=
  ∀ s t : State, step s = .next t → t.cfg = s.cfg

/-- R15: a performed or faulting command moves `CMDIDX` on by 1, a refused one and every other move of the host leave
it, and `HOST.RESET` sets it to 0 (R191). A refused word leaves the host's list although `CMDIDX` stays (log 9). -/
def Obligations.CmdIdxCountsConsumedCommands : Prop :=
  ∀ (s t : State) (m : HostMove) (rest : List HostMove), s.moves = m :: rest → step s = .next t →
    t.cmdIdx = match m with
      | .issue _ => if flagF s then s.cmdIdx else s.cmdIdx + 1
      | .reset => 0
      | .write _ _ => s.cmdIdx
      | .read _ _ => s.cmdIdx
      | .readReg _ => s.cmdIdx

/-- R30, R34, R25: a byte of `MEM` changes only by a reset, by a host write that covers it, or by a performed command
whose destination footprint holds it. -/
def Obligations.OnlyNamedMovesWriteMemory : Prop :=
  ∀ (s t : State) (m : HostMove) (rest : List HostMove) (a : Nat), s.moves = m :: rest → step s = .next t →
    State.readByte t a ≠ State.readByte s a →
    m = .reset
      ∨ (∃ base bytes, m = .write base bytes ∧ InBytes base bytes.length a)
      ∨ (∃ w i f, m = .issue w ∧ decode w = .ok i ∧ Ready s i ∧ commandFootprint i = some f
          ∧ InBytes f.dst f.dlen a)

/-- R45: no command writes a byte of its source footprint. -/
def Obligations.SourceFootprintIsReadOnly : Prop :=
  ∀ (s t : State) (i : Instr) (f : Footprint) (a : Nat), commandFootprint i = some f → exec i s = .next t →
    InBytes f.src f.slen a → State.readByte t a = State.readByte s a

/-- R21: a performed command's destination bytes are a function of its word and of the bytes in its source footprint:
two states that agree there, whatever else they hold, get the same destination bytes. -/
def Obligations.ResultDependsOnTheSourceOnly : Prop :=
  ∀ (s s' t t' : State) (i : Instr) (f : Footprint), commandFootprint i = some f →
    Ready s i → Ready s' i → exec i s = .next t → exec i s' = .next t' →
    (∀ a, InBytes f.src f.slen a → State.readByte s a = State.readByte s' a) →
    ∀ a, InBytes f.dst f.dlen a → State.readByte t a = State.readByte t' a

/-- R150: the tests read only the word, `STATUS.F` and the configuration: two states that agree on those report the
same of every issued word, whatever their memories and other registers hold. -/
def Obligations.ReportIndependentOfData : Prop :=
  ∀ (s s' t t' : State) (w : Word) (rest rest' : List HostMove),
    s.moves = .issue w :: rest → s'.moves = .issue w :: rest' → s.cfg = s'.cfg → flagF s = flagF s' →
    step s = .next t → step s' = .next t' → t.report = t'.report

/-- R46: re-issuing a performed EXPAND or TODEC rewrites the same bytes: every byte of memory reads as after the
first. -/
def Obligations.CommandsAreIdempotent : Prop :=
  ∀ (s t : State) (i : Instr), Ready s i → exec i s = .next t →
    ∃ u, exec i t = .next u ∧ u.report = .performed ∧ SameMemory t u ∧ u.res = t.res
end

