-- ==== Sys2Proof/Laws/State.lean ====
section
/-! SUPPORT. What each update of the state leaves in each field: one lemma per field per update, so that no proof unfolds
a record update. -/

namespace Sys2Proof.Machine

variable (s : State)

/-! ## State.writeByte -/

@[simp] theorem writeByte_cfg (a : Nat) (v : Byte) : (State.writeByte s a v).cfg = s.cfg := rfl
@[simp] theorem writeByte_mem (a : Nat) (v : Byte) : (State.writeByte s a v).mem = Memory.put s.mem a v := rfl
@[simp] theorem writeByte_res (a : Nat) (v : Byte) : (State.writeByte s a v).res = s.res := rfl
@[simp] theorem writeByte_status (a : Nat) (v : Byte) : (State.writeByte s a v).status = s.status := rfl
@[simp] theorem writeByte_fcmd (a : Nat) (v : Byte) : (State.writeByte s a v).fcmd = s.fcmd := rfl
@[simp] theorem writeByte_w1 (a : Nat) (v : Byte) : (State.writeByte s a v).w1 = s.w1 := rfl
@[simp] theorem writeByte_w2 (a : Nat) (v : Byte) : (State.writeByte s a v).w2 = s.w2 := rfl
@[simp] theorem writeByte_wt (a : Nat) (v : Byte) : (State.writeByte s a v).wt = s.wt := rfl
@[simp] theorem writeByte_cmdIdx (a : Nat) (v : Byte) : (State.writeByte s a v).cmdIdx = s.cmdIdx := rfl
@[simp] theorem writeByte_moves (a : Nat) (v : Byte) : (State.writeByte s a v).moves = s.moves := rfl
@[simp] theorem writeByte_obs (a : Nat) (v : Byte) : (State.writeByte s a v).obs = s.obs := rfl
@[simp] theorem writeByte_report (a : Nat) (v : Byte) : (State.writeByte s a v).report = s.report := rfl
@[simp] theorem writeByte_resets (a : Nat) (v : Byte) : (State.writeByte s a v).resets = s.resets := rfl
@[simp] theorem writeByte_freeCtr (a : Nat) (v : Byte) : (State.writeByte s a v).freeCtr = s.freeCtr := rfl

/-! ## State.memWrite -/

@[simp] theorem memWrite_cfg (a : Nat) (v : List Byte) : (State.memWrite s a v).cfg = s.cfg := rfl
@[simp] theorem memWrite_mem (a : Nat) (v : List Byte) : (State.memWrite s a v).mem = Memory.putBytes s.mem a v := rfl
@[simp] theorem memWrite_res (a : Nat) (v : List Byte) : (State.memWrite s a v).res = s.res := rfl
@[simp] theorem memWrite_status (a : Nat) (v : List Byte) : (State.memWrite s a v).status = s.status := rfl
@[simp] theorem memWrite_fcmd (a : Nat) (v : List Byte) : (State.memWrite s a v).fcmd = s.fcmd := rfl
@[simp] theorem memWrite_w1 (a : Nat) (v : List Byte) : (State.memWrite s a v).w1 = s.w1 := rfl
@[simp] theorem memWrite_w2 (a : Nat) (v : List Byte) : (State.memWrite s a v).w2 = s.w2 := rfl
@[simp] theorem memWrite_wt (a : Nat) (v : List Byte) : (State.memWrite s a v).wt = s.wt := rfl
@[simp] theorem memWrite_cmdIdx (a : Nat) (v : List Byte) : (State.memWrite s a v).cmdIdx = s.cmdIdx := rfl
@[simp] theorem memWrite_moves (a : Nat) (v : List Byte) : (State.memWrite s a v).moves = s.moves := rfl
@[simp] theorem memWrite_obs (a : Nat) (v : List Byte) : (State.memWrite s a v).obs = s.obs := rfl
@[simp] theorem memWrite_report (a : Nat) (v : List Byte) : (State.memWrite s a v).report = s.report := rfl
@[simp] theorem memWrite_resets (a : Nat) (v : List Byte) : (State.memWrite s a v).resets = s.resets := rfl
@[simp] theorem memWrite_freeCtr (a : Nat) (v : List Byte) : (State.memWrite s a v).freeCtr = s.freeCtr := rfl

/-! ## store128 -/

@[simp] theorem store128_cfg (a : Nat) (v : V128) : (store128 s a v).cfg = s.cfg := rfl
@[simp] theorem store128_mem (a : Nat) (v : V128) : (store128 s a v).mem = Memory.putV128 s.mem a v := rfl
@[simp] theorem store128_res (a : Nat) (v : V128) : (store128 s a v).res = s.res := rfl
@[simp] theorem store128_status (a : Nat) (v : V128) : (store128 s a v).status = s.status := rfl
@[simp] theorem store128_fcmd (a : Nat) (v : V128) : (store128 s a v).fcmd = s.fcmd := rfl
@[simp] theorem store128_w1 (a : Nat) (v : V128) : (store128 s a v).w1 = s.w1 := rfl
@[simp] theorem store128_w2 (a : Nat) (v : V128) : (store128 s a v).w2 = s.w2 := rfl
@[simp] theorem store128_wt (a : Nat) (v : V128) : (store128 s a v).wt = s.wt := rfl
@[simp] theorem store128_cmdIdx (a : Nat) (v : V128) : (store128 s a v).cmdIdx = s.cmdIdx := rfl
@[simp] theorem store128_moves (a : Nat) (v : V128) : (store128 s a v).moves = s.moves := rfl
@[simp] theorem store128_obs (a : Nat) (v : V128) : (store128 s a v).obs = s.obs := rfl
@[simp] theorem store128_report (a : Nat) (v : V128) : (store128 s a v).report = s.report := rfl
@[simp] theorem store128_resets (a : Nat) (v : V128) : (store128 s a v).resets = s.resets := rfl
@[simp] theorem store128_freeCtr (a : Nat) (v : V128) : (store128 s a v).freeCtr = s.freeCtr := rfl

/-! ## storeSchedule -/

@[simp] theorem storeSchedule_cfg (a : Nat) (rks : List V128) : (storeSchedule s a rks).cfg = s.cfg := rfl
@[simp] theorem storeSchedule_mem (a : Nat) (rks : List V128) : (storeSchedule s a rks).mem = Memory.putSchedule s.mem a rks := rfl
@[simp] theorem storeSchedule_res (a : Nat) (rks : List V128) : (storeSchedule s a rks).res = s.res := rfl
@[simp] theorem storeSchedule_status (a : Nat) (rks : List V128) : (storeSchedule s a rks).status = s.status := rfl
@[simp] theorem storeSchedule_fcmd (a : Nat) (rks : List V128) : (storeSchedule s a rks).fcmd = s.fcmd := rfl
@[simp] theorem storeSchedule_w1 (a : Nat) (rks : List V128) : (storeSchedule s a rks).w1 = s.w1 := rfl
@[simp] theorem storeSchedule_w2 (a : Nat) (rks : List V128) : (storeSchedule s a rks).w2 = s.w2 := rfl
@[simp] theorem storeSchedule_wt (a : Nat) (rks : List V128) : (storeSchedule s a rks).wt = s.wt := rfl
@[simp] theorem storeSchedule_cmdIdx (a : Nat) (rks : List V128) : (storeSchedule s a rks).cmdIdx = s.cmdIdx := rfl
@[simp] theorem storeSchedule_moves (a : Nat) (rks : List V128) : (storeSchedule s a rks).moves = s.moves := rfl
@[simp] theorem storeSchedule_obs (a : Nat) (rks : List V128) : (storeSchedule s a rks).obs = s.obs := rfl
@[simp] theorem storeSchedule_report (a : Nat) (rks : List V128) : (storeSchedule s a rks).report = s.report := rfl
@[simp] theorem storeSchedule_resets (a : Nat) (rks : List V128) : (storeSchedule s a rks).resets = s.resets := rfl
@[simp] theorem storeSchedule_freeCtr (a : Nat) (rks : List V128) : (storeSchedule s a rks).freeCtr = s.freeCtr := rfl

/-! ## setRes -/

@[simp] theorem setRes_cfg (v : Word) : (setRes s v).cfg = s.cfg := rfl
@[simp] theorem setRes_mem (v : Word) : (setRes s v).mem = s.mem := rfl
@[simp] theorem setRes_res (v : Word) : (setRes s v).res = v := rfl
@[simp] theorem setRes_status (v : Word) : (setRes s v).status = s.status := rfl
@[simp] theorem setRes_fcmd (v : Word) : (setRes s v).fcmd = s.fcmd := rfl
@[simp] theorem setRes_w1 (v : Word) : (setRes s v).w1 = s.w1 := rfl
@[simp] theorem setRes_w2 (v : Word) : (setRes s v).w2 = s.w2 := rfl
@[simp] theorem setRes_wt (v : Word) : (setRes s v).wt = s.wt := rfl
@[simp] theorem setRes_cmdIdx (v : Word) : (setRes s v).cmdIdx = s.cmdIdx := rfl
@[simp] theorem setRes_moves (v : Word) : (setRes s v).moves = s.moves := rfl
@[simp] theorem setRes_obs (v : Word) : (setRes s v).obs = s.obs := rfl
@[simp] theorem setRes_report (v : Word) : (setRes s v).report = s.report := rfl
@[simp] theorem setRes_resets (v : Word) : (setRes s v).resets = s.resets := rfl
@[simp] theorem setRes_freeCtr (v : Word) : (setRes s v).freeCtr = s.freeCtr := rfl

/-! ## setScratch -/

@[simp] theorem setScratch_cfg (x : Scratch) : (setScratch s x).cfg = s.cfg := rfl
@[simp] theorem setScratch_mem (x : Scratch) : (setScratch s x).mem = s.mem := rfl
@[simp] theorem setScratch_res (x : Scratch) : (setScratch s x).res = s.res := rfl
@[simp] theorem setScratch_status (x : Scratch) : (setScratch s x).status = s.status := rfl
@[simp] theorem setScratch_fcmd (x : Scratch) : (setScratch s x).fcmd = s.fcmd := rfl
@[simp] theorem setScratch_w1 (x : Scratch) : (setScratch s x).w1 = x.w1.getD (Config.freeV128 s.freeCtr) := rfl
@[simp] theorem setScratch_w2 (x : Scratch) : (setScratch s x).w2 = x.w2.getD (Config.freeV128 (s.freeCtr + 1)) := rfl
@[simp] theorem setScratch_wt (x : Scratch) : (setScratch s x).wt = x.wt.getD (Config.freeV128 (s.freeCtr + 2)) := rfl
@[simp] theorem setScratch_cmdIdx (x : Scratch) : (setScratch s x).cmdIdx = s.cmdIdx := rfl
@[simp] theorem setScratch_moves (x : Scratch) : (setScratch s x).moves = s.moves := rfl
@[simp] theorem setScratch_obs (x : Scratch) : (setScratch s x).obs = s.obs := rfl
@[simp] theorem setScratch_report (x : Scratch) : (setScratch s x).report = s.report := rfl
@[simp] theorem setScratch_resets (x : Scratch) : (setScratch s x).resets = s.resets := rfl
@[simp] theorem setScratch_freeCtr (x : Scratch) : (setScratch s x).freeCtr = s.freeCtr + 3 := rfl

/-! ## faultEntry -/

@[simp] theorem faultEntry_cfg (c : Cause) (w : Word) : (faultEntry c w s).cfg = s.cfg := rfl
@[simp] theorem faultEntry_mem (c : Cause) (w : Word) : (faultEntry c w s).mem = s.mem := rfl
@[simp] theorem faultEntry_res (c : Cause) (w : Word) : (faultEntry c w s).res = s.res := rfl
@[simp] theorem faultEntry_status (c : Cause) (w : Word) : (faultEntry c w s).status = statusOf c := rfl
@[simp] theorem faultEntry_fcmd (c : Cause) (w : Word) : (faultEntry c w s).fcmd = w := rfl
@[simp] theorem faultEntry_w1 (c : Cause) (w : Word) : (faultEntry c w s).w1 = s.w1 := rfl
@[simp] theorem faultEntry_w2 (c : Cause) (w : Word) : (faultEntry c w s).w2 = s.w2 := rfl
@[simp] theorem faultEntry_wt (c : Cause) (w : Word) : (faultEntry c w s).wt = s.wt := rfl
@[simp] theorem faultEntry_cmdIdx (c : Cause) (w : Word) : (faultEntry c w s).cmdIdx = s.cmdIdx := rfl
@[simp] theorem faultEntry_moves (c : Cause) (w : Word) : (faultEntry c w s).moves = s.moves := rfl
@[simp] theorem faultEntry_obs (c : Cause) (w : Word) : (faultEntry c w s).obs = s.obs := rfl
@[simp] theorem faultEntry_report (c : Cause) (w : Word) : (faultEntry c w s).report = s.report := rfl
@[simp] theorem faultEntry_resets (c : Cause) (w : Word) : (faultEntry c w s).resets = s.resets := rfl
@[simp] theorem faultEntry_freeCtr (c : Cause) (w : Word) : (faultEntry c w s).freeCtr = s.freeCtr := rfl

/-! ## consume -/

@[simp] theorem consume_cfg (r : Report) : (consume r s).cfg = s.cfg := rfl
@[simp] theorem consume_mem (r : Report) : (consume r s).mem = s.mem := rfl
@[simp] theorem consume_res (r : Report) : (consume r s).res = s.res := rfl
@[simp] theorem consume_status (r : Report) : (consume r s).status = s.status := rfl
@[simp] theorem consume_fcmd (r : Report) : (consume r s).fcmd = s.fcmd := rfl
@[simp] theorem consume_w1 (r : Report) : (consume r s).w1 = s.w1 := rfl
@[simp] theorem consume_w2 (r : Report) : (consume r s).w2 = s.w2 := rfl
@[simp] theorem consume_wt (r : Report) : (consume r s).wt = s.wt := rfl
@[simp] theorem consume_cmdIdx (r : Report) : (consume r s).cmdIdx = s.cmdIdx + 1 := rfl
@[simp] theorem consume_moves (r : Report) : (consume r s).moves = s.moves := rfl
@[simp] theorem consume_obs (r : Report) : (consume r s).obs = s.obs := rfl
@[simp] theorem consume_report (r : Report) : (consume r s).report = r := rfl
@[simp] theorem consume_resets (r : Report) : (consume r s).resets = s.resets := rfl
@[simp] theorem consume_freeCtr (r : Report) : (consume r s).freeCtr = s.freeCtr := rfl

/-! ## raiseFault -/

@[simp] theorem raiseFault_cfg (c : Cause) (w : Word) : (raiseFault c w s).cfg = s.cfg := rfl
@[simp] theorem raiseFault_mem (c : Cause) (w : Word) : (raiseFault c w s).mem = s.mem := rfl
@[simp] theorem raiseFault_res (c : Cause) (w : Word) : (raiseFault c w s).res = s.res := rfl
@[simp] theorem raiseFault_status (c : Cause) (w : Word) : (raiseFault c w s).status = statusOf c := rfl
@[simp] theorem raiseFault_fcmd (c : Cause) (w : Word) : (raiseFault c w s).fcmd = w := rfl
@[simp] theorem raiseFault_w1 (c : Cause) (w : Word) : (raiseFault c w s).w1 = s.w1 := rfl
@[simp] theorem raiseFault_w2 (c : Cause) (w : Word) : (raiseFault c w s).w2 = s.w2 := rfl
@[simp] theorem raiseFault_wt (c : Cause) (w : Word) : (raiseFault c w s).wt = s.wt := rfl
@[simp] theorem raiseFault_cmdIdx (c : Cause) (w : Word) : (raiseFault c w s).cmdIdx = s.cmdIdx + 1 := rfl
@[simp] theorem raiseFault_moves (c : Cause) (w : Word) : (raiseFault c w s).moves = s.moves := rfl
@[simp] theorem raiseFault_obs (c : Cause) (w : Word) : (raiseFault c w s).obs = s.obs := rfl
@[simp] theorem raiseFault_report (c : Cause) (w : Word) : (raiseFault c w s).report = .faulted c := rfl
@[simp] theorem raiseFault_resets (c : Cause) (w : Word) : (raiseFault c w s).resets = s.resets := rfl
@[simp] theorem raiseFault_freeCtr (c : Cause) (w : Word) : (raiseFault c w s).freeCtr = s.freeCtr := rfl

/-! ## refuse -/

@[simp] theorem refuse_cfg : (refuse s).cfg = s.cfg := rfl
@[simp] theorem refuse_mem : (refuse s).mem = s.mem := rfl
@[simp] theorem refuse_res : (refuse s).res = s.res := rfl
@[simp] theorem refuse_status : (refuse s).status = s.status := rfl
@[simp] theorem refuse_fcmd : (refuse s).fcmd = s.fcmd := rfl
@[simp] theorem refuse_w1 : (refuse s).w1 = s.w1 := rfl
@[simp] theorem refuse_w2 : (refuse s).w2 = s.w2 := rfl
@[simp] theorem refuse_wt : (refuse s).wt = s.wt := rfl
@[simp] theorem refuse_cmdIdx : (refuse s).cmdIdx = s.cmdIdx := rfl
@[simp] theorem refuse_moves : (refuse s).moves = s.moves := rfl
@[simp] theorem refuse_obs : (refuse s).obs = s.obs := rfl
@[simp] theorem refuse_report : (refuse s).report = .refused := rfl
@[simp] theorem refuse_resets : (refuse s).resets = s.resets := rfl
@[simp] theorem refuse_freeCtr : (refuse s).freeCtr = s.freeCtr := rfl

/-! ## resetEntry -/

@[simp] theorem resetEntry_cfg : (resetEntry s).cfg = s.cfg := rfl
@[simp] theorem resetEntry_mem : (resetEntry s).mem = [] := rfl
@[simp] theorem resetEntry_res : (resetEntry s).res = 0#32 := rfl
@[simp] theorem resetEntry_status : (resetEntry s).status = 0#32 := rfl
@[simp] theorem resetEntry_fcmd : (resetEntry s).fcmd = 0#32 := rfl
@[simp] theorem resetEntry_w1 : (resetEntry s).w1 = Config.freeV128 s.freeCtr := rfl
@[simp] theorem resetEntry_w2 : (resetEntry s).w2 = Config.freeV128 (s.freeCtr + 1) := rfl
@[simp] theorem resetEntry_wt : (resetEntry s).wt = Config.freeV128 (s.freeCtr + 2) := rfl
@[simp] theorem resetEntry_cmdIdx : (resetEntry s).cmdIdx = 0 := rfl
@[simp] theorem resetEntry_moves : (resetEntry s).moves = s.moves := rfl
@[simp] theorem resetEntry_obs : (resetEntry s).obs = s.obs := rfl
@[simp] theorem resetEntry_report : (resetEntry s).report = .none := rfl
@[simp] theorem resetEntry_resets : (resetEntry s).resets = s.resets + 1 := rfl
@[simp] theorem resetEntry_freeCtr : (resetEntry s).freeCtr = s.freeCtr + 3 := rfl

/-! ## The flag -/

/-- `STATUS.F` is set by fault entry (R179). -/
@[simp] theorem statusF_statusOf (c : Cause) : statusF (statusOf c) = true := by cases c <;> decide

theorem statusF_zero : statusF 0#32 = false := by decide

/-- `flagF` reads `STATUS` only. -/
theorem flagF_congr {s t : State} (h : t.status = s.status) : flagF t = flagF s := by simp [flagF, h]

end Sys2Proof.Machine
end

