-- ==== Sys2Proof/Laws/Memory.lean ====
section
/-! SUPPORT. What the memory operations do, said once: a read after a write, the bytes a store leaves alone, the round
keys a stored schedule reads back as, and that every memory operation keeps the canonical form. -/

namespace Sys2Proof.Machine

/-! ## The list of written bytes -/

theorem find_put_same (m : List Host.Cell) (a : Nat) (v : Byte) : Memory.find (Memory.put m a v) a = some v := by
  induction m with
  | nil => simp [Memory.put, Memory.find]
  | cons c m ih =>
    obtain ⟨b, u⟩ := c
    by_cases h1 : a < b
    · simp [Memory.put, h1, Memory.find]
    · by_cases h2 : a = b <;> simp [Memory.put, h1, h2, Memory.find]
      exact ih

theorem find_put_ne (m : List Host.Cell) {a b : Nat} (v : Byte) (h : b ≠ a) :
    Memory.find (Memory.put m a v) b = Memory.find m b := by
  induction m with
  | nil => simp [Memory.put, Memory.find, h]
  | cons c m ih =>
    obtain ⟨x, u⟩ := c
    by_cases h1 : a < x
    · simp [Memory.put, h1, Memory.find, h]
    · by_cases h2 : a = x
      · subst h2; simp [Memory.put, Memory.find, h]
      · simp only [Memory.put, h1, h2, if_false, Memory.find, ih]

/-- Putting a byte keeps the form from `lo` on. -/
theorem wfFrom_put (m : List Host.Cell) {lo limit a : Nat} (v : Byte) (hm : Memory.wfFrom lo limit m = true)
    (hlo : lo ≤ a) (ha : a < limit) : Memory.wfFrom lo limit (Memory.put m a v) = true := by
  induction m generalizing lo with
  | nil => simp [Memory.put, Memory.wfFrom, hlo, ha]
  | cons c m ih =>
    obtain ⟨b, u⟩ := c
    simp only [Memory.wfFrom, Bool.and_eq_true, decide_eq_true_eq] at hm
    obtain ⟨⟨h1, h2⟩, h3⟩ := hm
    by_cases h4 : a < b
    · simp [Memory.put, h4, Memory.wfFrom, hlo, ha, h2, h3]
    · by_cases h5 : a = b
      · subst h5; simp [Memory.put, Memory.wfFrom, h1, h2, h3]
      · simp only [Memory.put, h4, h5, if_false, Memory.wfFrom, h1, h2, decide_true, Bool.true_and]
        exact ih h3 (by omega)

/-- Putting a byte of `MEM` keeps the canonical form. -/
theorem wf_put (m : List Host.Cell) {limit a : Nat} (v : Byte) (hm : Memory.wf limit m = true) (ha : a < limit) :
    Memory.wf limit (Memory.put m a v) = true :=
  wfFrom_put m v hm (Nat.zero_le a) ha

/-- Canonical memories that hold the same bytes at the same addresses are the same list. -/
theorem wfFrom_ext {lo limit : Nat} (m m' : List Host.Cell) (h : Memory.wfFrom lo limit m = true)
    (h' : Memory.wfFrom lo limit m' = true) (e : ∀ a, Memory.find m a = Memory.find m' a) : m = m' := by
  have none_below : ∀ (m : List Host.Cell) (lo a : Nat), Memory.wfFrom lo limit m = true → a < lo →
      Memory.find m a = none := by
    intro m
    induction m with
    | nil => intros; rfl
    | cons c m ih =>
      obtain ⟨b, u⟩ := c
      intro lo a hm ha
      simp only [Memory.wfFrom, Bool.and_eq_true, decide_eq_true_eq] at hm
      have : a ≠ b := by omega
      simp only [Memory.find, this, if_false]
      exact ih _ _ hm.2 (by omega)
  induction m generalizing m' lo with
  | nil =>
    cases m' with
    | nil => rfl
    | cons c m' => obtain ⟨b, u⟩ := c; have := e b; simp [Memory.find] at this
  | cons c m ih =>
    obtain ⟨b, u⟩ := c
    cases m' with
    | nil => have := e b; simp [Memory.find] at this
    | cons c' m' =>
      obtain ⟨b', u'⟩ := c'
      simp only [Memory.wfFrom, Bool.and_eq_true, decide_eq_true_eq] at h h'
      have hb : b = b' := by
        rcases Nat.lt_trichotomy b b' with hlt | heq | hgt
        · have := e b
          simp only [Memory.find, if_true, Nat.ne_of_lt hlt, if_false] at this
          rw [none_below m' _ b h'.2 (by omega)] at this
          cases this
        · exact heq
        · have := e b'
          simp only [Memory.find, if_true, Nat.ne_of_lt hgt, if_false] at this
          rw [none_below m _ b' h.2 (by omega)] at this
          cases this
      subst hb
      have hu := e b
      simp only [Memory.find, if_true, Option.some.injEq] at hu
      subst hu
      rw [ih m' h.2 h'.2]
      intro a
      by_cases ha : a = b
      · subst ha; rw [none_below m _ a h.2 (by omega), none_below m' _ a h'.2 (by omega)]
      · have := e a; simpa [Memory.find, ha] using this

/-! ## Bytes -/

/-- A byte reads alike in two states of the same memory and the same number of resets. -/
theorem readByte_congr {s t : State} (hm : t.mem = s.mem) (hr : t.resets = s.resets) (a : Nat) :
    State.readByte t a = State.readByte s a := by
  simp [State.readByte, State.unwritten, hm, hr]

theorem readByte_writeByte_same (s : State) (a : Nat) (v : Byte) :
    State.readByte (State.writeByte s a v) a = v := by
  simp [State.readByte, find_put_same]

theorem readByte_writeByte_ne (s : State) {a b : Nat} (v : Byte) (h : b ≠ a) :
    State.readByte (State.writeByte s a v) b = State.readByte s b := by
  simp [State.readByte, State.unwritten, find_put_ne _ v h]

theorem find_putBytes_outside (m : List Host.Cell) (a : Nat) (bs : List Byte) {b : Nat}
    (h : b < a ∨ a + bs.length ≤ b) : Memory.find (Memory.putBytes m a bs) b = Memory.find m b := by
  induction bs generalizing m a with
  | nil => rfl
  | cons v bs ih =>
    simp only [List.length_cons] at h
    rw [Memory.putBytes, ih _ _ (by omega), find_put_ne _ _ (by omega)]

theorem find_putBytes_inside (m : List Host.Cell) (a : Nat) (bs : List Byte) (i : Nat) (h : i < bs.length) :
    Memory.find (Memory.putBytes m a bs) (a + i) = some bs[i] := by
  induction bs generalizing m a i with
  | nil => simp at h
  | cons v bs ih =>
    cases i with
    | zero => rw [Memory.putBytes, find_putBytes_outside _ _ _ (by omega)]; exact find_put_same ..
    | succ i =>
      have := ih (Memory.put m a v) (a + 1) i (by simpa using h)
      rw [Memory.putBytes, show a + (i + 1) = a + 1 + i by omega, this]; rfl

theorem wf_putBytes (m : List Host.Cell) (a : Nat) (bs : List Byte) {limit : Nat} (hm : Memory.wf limit m = true)
    (h : a + bs.length ≤ limit) : Memory.wf limit (Memory.putBytes m a bs) = true := by
  induction bs generalizing m a with
  | nil => exact hm
  | cons v bs ih =>
    simp only [List.length_cons] at h
    exact ih _ _ (wf_put _ v hm (by omega)) (by omega)

/-- `MemWrite` leaves every byte outside its range alone. -/
theorem readByte_memWrite_outside (s : State) (a : Nat) (bs : List Byte) {b : Nat}
    (h : b < a ∨ a + bs.length ≤ b) : State.readByte (State.memWrite s a bs) b = State.readByte s b := by
  simp [State.readByte, State.unwritten, find_putBytes_outside _ _ _ h]

/-- `MemWrite(a, n, v)`: `MEM[a+i] = v[i]` (R7). -/
theorem readByte_memWrite_inside (s : State) (a : Nat) (bs : List Byte) (i : Nat) (h : i < bs.length) :
    State.readByte (State.memWrite s a bs) (a + i) = bs[i] := by
  simp [State.readByte, find_putBytes_inside _ _ _ _ h]

@[simp] theorem memRead_length (s : State) (a n : Nat) : (State.memRead s a n).length = n := by
  induction n generalizing a with
  | zero => rfl
  | succ n ih => simp [State.memRead, ih]

/-- `MemRead(a, n)`: element `i` from address `a + i` (R7). -/
theorem memRead_getElem (s : State) (a n i : Nat) (h : i < (State.memRead s a n).length) :
    (State.memRead s a n)[i] = State.readByte s (a + i) := by
  induction n generalizing a i with
  | zero => simp at h
  | succ n ih =>
    cases i with
    | zero => rfl
    | succ i =>
      have := ih (a + 1) i (by simpa [State.memRead] using h)
      simpa [State.memRead, Nat.add_assoc, Nat.add_comm 1 i] using this

/-- `MemWrite` inside `MEM` keeps the canonical form. -/
theorem memWrite_wf (s : State) (a : Nat) (bs : List Byte) {limit : Nat} (hm : Memory.wf limit s.mem = true)
    (h : a + bs.length ≤ limit) : Memory.wf limit (State.memWrite s a bs).mem = true :=
  wf_putBytes s.mem a bs hm h

/-! ## V128 values in memory -/

@[simp] theorem bytes_length (v : V128) : (V128.bytes v).length = 16 := rfl

/-- `LOAD128` after a change that leaves its sixteen bytes alone. -/
theorem load128_congr {s t : State} {a b : Nat}
    (h : ∀ i, i < 16 → State.readByte t (b + i) = State.readByte s (a + i)) : load128 t b = load128 s a := by
  have h0 : State.readByte t b = State.readByte s a := h 0 (by omega)
  simp [load128, V128.ofFn, h, h0]

/-- `STORE128` is a `MemWrite` of the sixteen bytes (R79). -/
theorem store128_eq_memWrite (s : State) (a : Nat) (v : V128) : store128 s a v = State.memWrite s a (V128.bytes v) :=
  rfl

/-- A stored schedule is a `STORE128` per round key, in order (R22). -/
theorem storeSchedule_cons (s : State) (base : Nat) (rk : V128) (rks : List V128) :
    storeSchedule s base (rk :: rks) = storeSchedule (store128 s base rk) (base + 16) rks := by
  simp only [storeSchedule, store128, Memory.putSchedule]

/-- `LOAD128(a)` after `STORE128(a, v)` gives `v` (R79). -/
theorem load128_store128_same (s : State) (a : Nat) (v : V128) : load128 (store128 s a v) a = v := by
  have h := fun i (hi : i < 16) => readByte_memWrite_inside s a (V128.bytes v) i hi
  have h0 := h 0 (by omega)
  rw [Nat.add_zero] at h0
  rw [store128_eq_memWrite]
  simp only [load128, V128.ofFn, Fin.coe_ofNat_eq_mod, Nat.reduceMod, Nat.add_zero]
  rw [h0, h 1 (by omega), h 2 (by omega), h 3 (by omega), h 4 (by omega), h 5 (by omega), h 6 (by omega),
    h 7 (by omega), h 8 (by omega), h 9 (by omega), h 10 (by omega), h 11 (by omega), h 12 (by omega),
    h 13 (by omega), h 14 (by omega), h 15 (by omega)]
  rfl

theorem readByte_store128_outside (s : State) (a : Nat) (v : V128) {b : Nat} (h : b < a ∨ a + 16 ≤ b) :
    State.readByte (store128 s a v) b = State.readByte s b := by
  rw [store128_eq_memWrite]
  exact readByte_memWrite_outside s a _ (by simpa using h)

/-- A stored schedule leaves every byte outside its footprint alone (R34). -/
theorem readByte_storeSchedule_outside (s : State) (base : Nat) (rks : List V128) {b : Nat}
    (h : b < base ∨ base + 16 * rks.length ≤ b) :
    State.readByte (storeSchedule s base rks) b = State.readByte s b := by
  induction rks generalizing s base with
  | nil => rfl
  | cons rk rks ih =>
    simp only [List.length_cons] at h
    rw [storeSchedule_cons, ih _ _ (by omega), readByte_store128_outside _ _ _ (by omega)]

/-- Round key `i` of a stored schedule reads back from `base + 16*i` (R22). -/
theorem load128_storeSchedule (s : State) (base : Nat) (rks : List V128) (i : Nat) (h : i < rks.length) :
    load128 (storeSchedule s base rks) (base + 16 * i) = roundKey rks i := by
  induction rks generalizing s base i with
  | nil => simp at h
  | cons rk rks ih =>
    rw [storeSchedule_cons]
    cases i with
    | zero =>
      have : load128 (storeSchedule (store128 s base rk) (base + 16) rks) base = load128 (store128 s base rk) base :=
        load128_congr fun i hi => readByte_storeSchedule_outside _ _ _ (by omega)
      rw [show base + 16 * 0 = base by omega, this, load128_store128_same]
      rfl
    | succ i =>
      have := ih (store128 s base rk) (base + 16) i (by simpa using h)
      rw [show base + 16 * (i + 1) = base + 16 + 16 * i by omega, this]
      rfl

theorem store128_wf (s : State) (a : Nat) (v : V128) {limit : Nat} (hm : Memory.wf limit s.mem = true)
    (h : a + 16 ≤ limit) : Memory.wf limit (store128 s a v).mem = true := by
  rw [store128_eq_memWrite]
  exact memWrite_wf s a _ hm (by simpa using h)

/-- A schedule stored inside `MEM` keeps the canonical form. -/
theorem storeSchedule_wf (s : State) (base : Nat) (rks : List V128) {limit : Nat}
    (hm : Memory.wf limit s.mem = true) (h : base + 16 * rks.length ≤ limit) :
    Memory.wf limit (storeSchedule s base rks).mem = true := by
  induction rks generalizing s base with
  | nil => exact hm
  | cons rk rks ih =>
    simp only [List.length_cons] at h
    rw [storeSchedule_cons]
    exact ih _ _ (store128_wf s base rk hm (by omega)) (by omega)

@[simp] theorem loadSchedule_length (s : State) (base n : Nat) : (loadSchedule s base n).length = n := by
  induction n generalizing base with
  | zero => rfl
  | succ n ih => simp [loadSchedule, ih]

/-- Round key `i` of a loaded schedule is `LOAD128(base + 16*i)` (R22). -/
theorem roundKey_loadSchedule (s : State) (base n i : Nat) (h : i < n) :
    roundKey (loadSchedule s base n) i = load128 s (base + 16 * i) := by
  induction n generalizing base i with
  | zero => omega
  | succ n ih =>
    cases i with
    | zero => rfl
    | succ i =>
      have := ih (base + 16) i (by omega)
      rw [show base + 16 * (i + 1) = base + 16 + 16 * i by omega, ← this]
      rfl

end Sys2Proof.Machine
end

