-- ==== Sys2Proof/Laws/Command.lean ====
section
/-! SUPPORT. Everything a command can do, said once: the prologue's verdicts, the three cases of a command's step, and
the one shape that every arm of `exec` has. -/

namespace Sys2Proof.Machine

/-! ## The prologue (R150) -/

theorem overlaps_eq_false_iff (f : Footprint) (hs : 0 < f.slen) (hd : 0 < f.dlen) :
    overlaps f = false ↔ Footprint.Disjoint f := by
  simp only [overlaps, Footprint.Disjoint, InBytes, Bool.and_eq_false_iff, decide_eq_false_iff_not]
  constructor
  · intro h a h1 h2; omega
  · intro h
    by_contra hc
    have h1 := h (max f.src f.dst)
    omega

theorem prologue_eq_perform_iff (s : State) (path : Option Path) (fp : Option Footprint) :
    prologue s path fp = .perform ↔ flagF s = false ∧ (∀ p, path = some p → pathPresent s.cfg p = true)
      ∧ ∀ f, fp = some f → inRange s.cfg f = true ∧ overlaps f = false := by
  cases path <;> cases fp <;> cases h : flagF s <;> simp [prologue, h]
  all_goals (split <;> simp_all)
  all_goals (split <;> simp_all)

/-- The prologue never examines memory (R150, R198). -/
theorem prologue_congr {s t : State} (path : Option Path) (fp : Option Footprint) (hc : t.cfg = s.cfg)
    (hf : flagF t = flagF s) : prologue t path fp = prologue s path fp := by
  simp [prologue, hc, hf]

/-! ## A command's step -/

/-- A command ends in one of three next states: refused (R180), faulted (R179), or performed. -/
theorem command_cases {w : Word} {path : Option Path} {fp : Option Footprint} {perform : State → State} {s t : State}
    (h : command w path fp perform s = .next t) :
    (prologue s path fp = .refuse ∧ flagF s = true ∧ t = refuse s)
      ∨ (∃ c, prologue s path fp = .fault c ∧ flagF s = false ∧ t = raiseFault c w s)
      ∨ (prologue s path fp = .perform ∧ flagF s = false ∧ t = consume .performed (perform s)) := by
  unfold command at h
  have hf : prologue s path fp = .refuse ↔ flagF s = true := by
    unfold prologue
    split
    · simp_all
    · split <;> [skip; split <;> [skip; split]] <;> simp_all
  cases hv : prologue s path fp <;> rw [hv] at h <;> simp only [Host.Outcome.next.injEq] at h
  · exact .inl ⟨rfl, hf.1 hv, h.symm⟩
  · exact .inr (.inl ⟨_, rfl, by simpa using mt hf.2 (by simp [hv]), h.symm⟩)
  · exact .inr (.inr ⟨rfl, by simpa using mt hf.2 (by simp [hv]), h.symm⟩)

/-- A command always ends in a next state: no command stops the machine (R170, R199). -/
theorem command_total (w : Word) (path : Option Path) (fp : Option Footprint) (perform : State → State) (s : State) :
    ∃ t, command w path fp perform s = .next t := by
  unfold command; split <;> exact ⟨_, rfl⟩

theorem command_refused {w : Word} {path : Option Path} {fp : Option Footprint} {perform : State → State} {s : State}
    (h : flagF s = true) : command w path fp perform s = .next (refuse s) := by
  simp [command, prologue, h]

theorem command_performed {w : Word} {path : Option Path} {fp : Option Footprint} {perform : State → State} {s : State}
    (h : prologue s path fp = .perform) : command w path fp perform s = .next (consume .performed (perform s)) := by
  simp [command, h]

/-! ## Every arm of `exec` is a command -/

/-- What each command does once its prologue has passed. -/
def performOf : Instr → State → State
  | .expand128 dst src p => performExpand128 dst src p
  | .expand192 dst src p => performExpand192 dst src p
  | .expand256 dst src p => performExpand256 dst src p
  | .todec128 dst src => performTodec .k128 dst src
  | .todec192 dst src => performTodec .k192 dst src
  | .todec256 dst src => performTodec .k256 dst src
  | .rounds128 => performRounds .k128
  | .rounds192 => performRounds .k192
  | .rounds256 => performRounds .k256
  | .keybytes128 => performKeybytes .k128
  | .keybytes192 => performKeybytes .k192
  | .keybytes256 => performKeybytes .k256

theorem exec_eq_command (i : Instr) (s : State) :
    exec i s = command (encode i) (commandPath i) (commandFootprint i) (performOf i) s := by
  cases i <;> rfl

theorem footprint_lengths_pos {i : Instr} {f : Footprint} (h : commandFootprint i = some f) :
    0 < f.slen ∧ 0 < f.dlen := by
  cases i <;> simp only [commandFootprint, Option.some.injEq, reduceCtorEq] at h <;> subst h <;> simp

/-- `Ready` is exactly the prologue's verdict "perform" (R150). -/
theorem ready_iff_perform (s : State) (i : Instr) :
    Ready s i ↔ prologue s (commandPath i) (commandFootprint i) = .perform := by
  rw [prologue_eq_perform_iff]
  unfold Ready PathOk FitsOk DisjointOk
  constructor
  · rintro ⟨h1, h2, h3, h4⟩
    refine ⟨h1, h2, fun f hf => ⟨?_, ?_⟩⟩
    · have := h3 f hf; simpa [inRange, Footprint.Fits] using this
    · exact (overlaps_eq_false_iff f (footprint_lengths_pos hf).1 (footprint_lengths_pos hf).2).2 (h4 f hf)
  · rintro ⟨h1, h2, h3⟩
    refine ⟨h1, h2, fun f hf => ?_, fun f hf => ?_⟩
    · have := (h3 f hf).1; simpa [inRange, Footprint.Fits] using this
    · exact (overlaps_eq_false_iff f (footprint_lengths_pos hf).1 (footprint_lengths_pos hf).2).1 (h3 f hf).2

/-- A ready command is performed. -/
theorem exec_of_ready {s : State} {i : Instr} (h : Ready s i) :
    exec i s = .next (consume .performed (performOf i s)) := by
  rw [exec_eq_command, command_performed ((ready_iff_perform s i).1 h)]

/-- The three cases of `exec`. -/
theorem exec_cases {i : Instr} {s t : State} (h : exec i s = .next t) :
    (flagF s = true ∧ t = refuse s)
      ∨ (∃ c, flagF s = false ∧ ¬ Ready s i ∧ t = raiseFault c (encode i) s)
      ∨ (Ready s i ∧ t = consume .performed (performOf i s)) := by
  rw [exec_eq_command] at h
  rcases command_cases h with ⟨_, h2, h3⟩ | ⟨c, h1, h2, h3⟩ | ⟨h1, _, h3⟩
  · exact .inl ⟨h2, h3⟩
  · exact .inr (.inl ⟨c, h2, by rw [ready_iff_perform, h1]; simp, h3⟩)
  · exact .inr (.inr ⟨(ready_iff_perform s i).2 h1, h3⟩)

end Sys2Proof.Machine
end

