-- ==== Sys2Proof/Laws/Encoding.lean ====
section
/-! SUPPORT. The fields of a packed word (`30_encoding.md` R51), and the fields as numbers: the decoder's tests and the
tests of `Safety.lean` are the same conditions. -/

namespace Sys2Proof.Machine

/-! ## The fields of a packed word -/

variable (dst src : Addr) (p : BitVec 1) (sel : BitVec 2) (op : BitVec 4)

theorem fieldOp_packWord : fieldOp (packWord dst src p sel op) = op := by
  apply BitVec.eq_of_getLsbD_eq
  intro i hi
  interval_cases i <;> simp [packWord, fieldOp]

theorem fieldSel_packWord : fieldSel (packWord dst src p sel op) = sel := by
  apply BitVec.eq_of_getLsbD_eq
  intro i hi
  interval_cases i <;> simp [packWord, fieldSel]

theorem fieldP_packWord : fieldP (packWord dst src p sel op) = p.getLsbD 0 := by
  simp [packWord, fieldP]

theorem fieldZ7_packWord : fieldZ7 (packWord dst src p sel op) = false := by
  simp [packWord, fieldZ7]

theorem fieldSrc_packWord : fieldSrc (packWord dst src p sel op) = src := by
  apply BitVec.eq_of_getLsbD_eq
  intro i hi
  interval_cases i <;> simp [packWord, fieldSrc]

theorem fieldDst_packWord : fieldDst (packWord dst src p sel op) = dst := by
  apply BitVec.eq_of_getLsbD_eq
  intro i hi
  interval_cases i <;> simp [packWord, fieldDst]

/-! ## The fields as numbers -/

variable (w : Word)

theorem numOp_eq : numOp w = (fieldOp w).toNat := by
  simp [numOp, fieldOp, BitVec.extractLsb'_toNat]

theorem numSel_eq : numSel w = (fieldSel w).toNat := by
  simp [numSel, fieldSel, BitVec.extractLsb'_toNat, Nat.shiftRight_eq_div_pow]

theorem numSrc_eq : numSrc w = (fieldSrc w).toNat := by
  simp [numSrc, fieldSrc, BitVec.extractLsb'_toNat, Nat.shiftRight_eq_div_pow]

theorem numDst_eq : numDst w = (fieldDst w).toNat := by
  simp only [numDst, fieldDst, BitVec.extractLsb'_toNat, Nat.shiftRight_eq_div_pow]
  have := w.isLt
  omega

theorem numP_eq : numP w = (fieldP w).toNat := by
  simp only [numP, fieldP, BitVec.getLsbD, Nat.testBit_eq_decide_div_mod_eq]
  rcases Nat.mod_two_eq_zero_or_one (w.toNat / 64) with h | h <;> simp [h]

theorem numZ7_eq : numZ7 w = (fieldZ7 w).toNat := by
  simp only [numZ7, fieldZ7, BitVec.getLsbD, Nat.testBit_eq_decide_div_mod_eq]
  rcases Nat.mod_two_eq_zero_or_one (w.toNat / 128) with h | h <;> simp [h]

/-- The ILLEGAL_CMD tests on numbers are the decoder's (R56, R172). -/
theorem wordIllegal_iff : WordIllegal w ↔ illegalWord w = true := by
  have ne0 : ∀ a : Addr, a.toNat ≠ 0 ↔ a ≠ 0#12 := fun a => by
    rw [not_iff_not]; exact ⟨fun h => BitVec.eq_of_toNat_eq h, fun h => by rw [h]; rfl⟩
  unfold WordIllegal illegalWord
  rw [numOp_eq, numP_eq, numZ7_eq, numSrc_eq, numDst_eq, ne0, ne0]
  generalize fieldSrc w = a
  generalize fieldDst w = b
  generalize fieldOp w = o
  cases fieldP w <;> cases fieldZ7 w <;>
    simp [BitVec.toNat_eq] <;> by_cases h1 : a.toNat = 0 <;> by_cases h2 : b.toNat = 0 <;> simp [h1, h2] <;> omega

end Sys2Proof.Machine
end

