-- ==== Sys2Proof/Laws/PerInstr.lean ====
section
/-! SUPPORT. A family of facts about every command as syntax, one lemma per constructor: its word is the word of its own
row in the table of masks and matches (`30_encoding.md` R51, R52). -/

namespace Sys2Proof.Laws.RowMatch

/-- The word of `i` matches the row of `i`, and the row is one of the table. -/
def Statement (i : Instr) : Prop := i.row ∈ opcodeRows ∧ i.row.matchesWord (encode i) = true

/-- Of an EXPAND word only `p`, `src` and `dst` are free (R52, mask 0xBF). -/
theorem packWord_and_expand (dst src : Addr) (p : BitVec 1) (sel : BitVec 2) (op : BitVec 4) :
    packWord dst src p sel op &&& 0x000000BF#32 = (sel.setWidth 32 <<< 4) ||| op.setWidth 32 := by
  apply BitVec.eq_of_getLsbD_eq
  intro i hi
  interval_cases i <;> simp [packWord]

/-- Of a TODEC word only `src` and `dst` are free (R52, mask 0xFF). -/
theorem packWord_and_todec (dst src : Addr) (sel : BitVec 2) (op : BitVec 4) :
    packWord dst src 0#1 sel op &&& 0x000000FF#32 = (sel.setWidth 32 <<< 4) ||| op.setWidth 32 := by
  apply BitVec.eq_of_getLsbD_eq
  intro i hi
  interval_cases i <;> simp [packWord]

theorem expand128 (dst src : Addr) (p : Path) : Statement (.expand128 dst src p) :=
  ⟨by simp [Instr.row, opcodeRows], by simp [Instr.row, OpcodeRow.matchesWord, encode, packWord_and_expand]⟩

theorem expand192 (dst src : Addr) (p : Path) : Statement (.expand192 dst src p) :=
  ⟨by simp [Instr.row, opcodeRows], by simp [Instr.row, OpcodeRow.matchesWord, encode, packWord_and_expand]⟩

theorem expand256 (dst src : Addr) (p : Path) : Statement (.expand256 dst src p) :=
  ⟨by simp [Instr.row, opcodeRows], by simp [Instr.row, OpcodeRow.matchesWord, encode, packWord_and_expand]⟩

theorem todec128 (dst src : Addr) : Statement (.todec128 dst src) :=
  ⟨by simp [Instr.row, opcodeRows], by simp [Instr.row, OpcodeRow.matchesWord, encode, packWord_and_todec]⟩

theorem todec192 (dst src : Addr) : Statement (.todec192 dst src) :=
  ⟨by simp [Instr.row, opcodeRows], by simp [Instr.row, OpcodeRow.matchesWord, encode, packWord_and_todec]⟩

theorem todec256 (dst src : Addr) : Statement (.todec256 dst src) :=
  ⟨by simp [Instr.row, opcodeRows], by simp [Instr.row, OpcodeRow.matchesWord, encode, packWord_and_todec]⟩

theorem rounds128 : Statement .rounds128 := ⟨by decide, by decide⟩

theorem rounds192 : Statement .rounds192 := ⟨by decide, by decide⟩

theorem rounds256 : Statement .rounds256 := ⟨by decide, by decide⟩

theorem keybytes128 : Statement .keybytes128 := ⟨by decide, by decide⟩

theorem keybytes192 : Statement .keybytes192 := ⟨by decide, by decide⟩

theorem keybytes256 : Statement .keybytes256 := ⟨by decide, by decide⟩

end Sys2Proof.Laws.RowMatch
end

