-- ==== Sys2Proof/Laws/Schedule.lean ====
section
/-! SUPPORT. The lengths of the schedules the commands compute, and what performing each command leaves unchanged. -/

namespace Sys2Proof.Machine

/-! ## Lengths (R22, R24) -/

theorem expand128From_length (p : Path) (prev : V128) (rcs : List Byte) :
    (expand128From p prev rcs).length = rcs.length := by
  induction rcs generalizing prev with
  | nil => rfl
  | cons rc rcs ih => simp [expand128From, ih]

@[simp] theorem expand128_length (p : Path) (key : V128) : (expand128 p key).length = 11 := by
  simp [expand128, expand128From_length, rconPrefix, rconList]

@[simp] theorem expand192_length (p : Path) (a0 b0 : V128) : (expand192 p a0 b0).length = 13 := by
  cases p <;> rfl

@[simp] theorem expand256_length (p : Path) (key0 key1 : V128) : (expand256 p key0 key1).length = 15 := by
  cases p <;> rfl

theorem convertLoop_length (enc : List V128) (n i count : Nat) (dec : List V128) :
    (convertLoop enc n i count dec).length = dec.length := by
  induction count generalizing i dec with
  | zero => rfl
  | succ count ih => simp [convertLoop, ih]

@[simp] theorem convert_length (enc : List V128) (n : Nat) : (convert enc n).length = n + 1 := by
  simp [convert, convertLoop_length]

/-! ## What performing a command does -/

/-- The schedule a command with footprints stores, from the state it starts in. -/
def scheduleOf : Instr → State → List V128
  | .expand128 _ src p, s => expand128 p (load128 s src.toNat)
  | .expand192 _ src p, s => expand192 p (load128 s src.toNat) (load64z s (src.toNat + 16))
  | .expand256 _ src p, s => expand256 p (load128 s src.toNat) (load128 s (src.toNat + 16))
  | .todec128 _ src, s => convert (loadSchedule s src.toNat 11) 10
  | .todec192 _ src, s => convert (loadSchedule s src.toNat 13) 12
  | .todec256 _ src, s => convert (loadSchedule s src.toNat 15) 14
  | .rounds128, _ => []
  | .rounds192, _ => []
  | .rounds256, _ => []
  | .keybytes128, _ => []
  | .keybytes192, _ => []
  | .keybytes256, _ => []

/-- Its length fills the destination footprint exactly (R34). -/
theorem scheduleOf_length {i : Instr} {f : Footprint} (h : commandFootprint i = some f) (s : State) :
    16 * (scheduleOf i s).length = f.dlen := by
  cases i <;> simp only [commandFootprint, Option.some.injEq, reduceCtorEq] at h <;> subst h <;> simp [scheduleOf]

/-- A command with footprints stores that schedule at its destination and writes the working registers, no more. -/
theorem performOf_shape {i : Instr} {f : Footprint} (h : commandFootprint i = some f) (s : State) :
    ∃ x, performOf i s = setScratch (storeSchedule s f.dst (scheduleOf i s)) x := by
  cases i with
  | expand128 dst src p =>
    simp only [commandFootprint, Option.some.injEq] at h; subst h
    exact ⟨scratch128 p (expand128 p (load128 s src.toNat)), by
      simp only [performOf, performExpand128, scheduleOf, addrOf]⟩
  | expand192 dst src p =>
    simp only [commandFootprint, Option.some.injEq] at h; subst h
    exact ⟨scratch192 p (load128 s src.toNat) (load64z s (src.toNat + 16)), by
      simp only [performOf, performExpand192, scheduleOf, addrOf]⟩
  | expand256 dst src p =>
    simp only [commandFootprint, Option.some.injEq] at h; subst h
    exact ⟨scratch256, by simp only [performOf, performExpand256, scheduleOf, addrOf]⟩
  | todec128 dst src =>
    simp only [commandFootprint, Option.some.injEq] at h; subst h
    exact ⟨scratchTodec, by simp only [performOf, performTodec, scheduleOf, addrOf, schedLen, rounds]⟩
  | todec192 dst src =>
    simp only [commandFootprint, Option.some.injEq] at h; subst h
    exact ⟨scratchTodec, by simp only [performOf, performTodec, scheduleOf, addrOf, schedLen, rounds]⟩
  | todec256 dst src =>
    simp only [commandFootprint, Option.some.injEq] at h; subst h
    exact ⟨scratchTodec, by simp only [performOf, performTodec, scheduleOf, addrOf, schedLen, rounds]⟩
  | rounds128 => simp [commandFootprint] at h
  | rounds192 => simp [commandFootprint] at h
  | rounds256 => simp [commandFootprint] at h
  | keybytes128 => simp [commandFootprint] at h
  | keybytes192 => simp [commandFootprint] at h
  | keybytes256 => simp [commandFootprint] at h

/-- A command without footprints writes `RES`, no more (R152, R153). -/
theorem performOf_accessor {i : Instr} (h : commandFootprint i = none) (s : State) :
    ∃ v, performOf i s = setRes s v := by
  cases i with
  | expand128 dst src p => simp [commandFootprint] at h
  | expand192 dst src p => simp [commandFootprint] at h
  | expand256 dst src p => simp [commandFootprint] at h
  | todec128 dst src => simp [commandFootprint] at h
  | todec192 dst src => simp [commandFootprint] at h
  | todec256 dst src => simp [commandFootprint] at h
  | rounds128 => exact ⟨10#32, rfl⟩
  | rounds192 => exact ⟨12#32, rfl⟩
  | rounds256 => exact ⟨14#32, rfl⟩
  | keybytes128 => exact ⟨16#32, rfl⟩
  | keybytes192 => exact ⟨24#32, rfl⟩
  | keybytes256 => exact ⟨32#32, rfl⟩

/-- What performing any command leaves unchanged: the instance, the fault record, the host's side, `CMDIDX`. -/
theorem performOf_frame (i : Instr) (s : State) :
    (performOf i s).cfg = s.cfg ∧ (performOf i s).status = s.status ∧ (performOf i s).fcmd = s.fcmd
      ∧ (performOf i s).moves = s.moves ∧ (performOf i s).obs = s.obs ∧ (performOf i s).cmdIdx = s.cmdIdx
      ∧ (performOf i s).resets = s.resets := by
  cases hf : commandFootprint i with
  | none => obtain ⟨v, h⟩ := performOf_accessor hf s; simp [h]
  | some f => obtain ⟨x, h⟩ := performOf_shape hf s; simp [h]

/-- A command with footprints leaves `RES` alone (R11). -/
theorem performOf_res {i : Instr} {f : Footprint} (h : commandFootprint i = some f) (s : State) :
    (performOf i s).res = s.res := by
  obtain ⟨x, hx⟩ := performOf_shape h s; simp [hx]

/-- Bytes outside the destination footprint (R34). -/
theorem readByte_performOf_outside {i : Instr} {f : Footprint} (h : commandFootprint i = some f) (s : State) {a : Nat}
    (ha : ¬ InBytes f.dst f.dlen a) : State.readByte (performOf i s) a = State.readByte s a := by
  obtain ⟨x, hx⟩ := performOf_shape h s
  have h2 := scheduleOf_length h s
  have h1 : State.readByte (performOf i s) a = State.readByte (storeSchedule s f.dst (scheduleOf i s)) a :=
    readByte_congr (by simp [hx]) (by simp [hx]) a
  rw [h1, readByte_storeSchedule_outside]
  unfold InBytes at ha
  omega

/-- Round key `n` of the stored schedule, read back (R22). -/
theorem load128_performOf {i : Instr} {f : Footprint} (h : commandFootprint i = some f) (s : State) {n : Nat}
    (hn : 16 * n < f.dlen) : load128 (performOf i s) (f.dst + 16 * n) = roundKey (scheduleOf i s) n := by
  obtain ⟨x, hx⟩ := performOf_shape h s
  have h2 := scheduleOf_length h s
  rw [← load128_storeSchedule s f.dst (scheduleOf i s) n (by omega)]
  exact load128_congr fun j _ => readByte_congr (by simp [hx]) (by simp [hx]) _

/-- A ready command with footprints: it is performed, it writes only its destination footprint and the working registers,
and its schedule reads back from the destination (R22, R34). -/
theorem exec_schedule_of_ready {i : Instr} {f : Footprint} (hf : commandFootprint i = some f) {s : State}
    (h : Ready s i) :
    ∃ t, exec i s = .next t ∧ Performed s t ∧ WroteOnly f.dst f.dlen s t
      ∧ ∀ n, 16 * n < f.dlen → load128 t (f.dst + 16 * n) = roundKey (scheduleOf i s) n := by
  obtain ⟨hc, hs, hfc, hm, ho, hi, _⟩ := performOf_frame i s
  exact ⟨_, exec_of_ready h, ⟨rfl, by simp [consume, hi]⟩,
    ⟨⟨performOf_res hf s, hs, hfc⟩, ⟨hc, hm, ho⟩, fun _ ha => readByte_performOf_outside hf s ha⟩,
    fun _ hn => load128_performOf hf s hn⟩

/-- Performing a command whose footprints fit keeps the canonical form. -/
theorem performOf_wf {i : Instr} {s : State} (hm : MemCanonical s) (hf : FitsOk s.cfg i) :
    MemCanonical (performOf i s) := by
  unfold MemCanonical at *
  rw [(performOf_frame i s).1]
  cases h : commandFootprint i with
  | none => obtain ⟨v, hv⟩ := performOf_accessor h s; simpa [hv] using hm
  | some f =>
    obtain ⟨x, hx⟩ := performOf_shape h s
    have h1 := scheduleOf_length h s
    have h2 := (hf f h).2
    rw [hx, setScratch_mem]
    exact storeSchedule_wf s f.dst _ hm (by omega)

/-! ## A schedule depends on its source bytes only -/

variable {s s' : State} {base len : Nat}

theorem load128_of_agree (h : ∀ x, InBytes base len x → State.readByte s x = State.readByte s' x) {a : Nat}
    (h1 : base ≤ a) (h2 : a + 16 ≤ base + len) : load128 s a = load128 s' a :=
  load128_congr fun i hi => h _ (by unfold InBytes; omega)

/-- `LOAD64Z(a)` reads nothing beyond `a + 7` (R80). -/
theorem load64z_of_agree (h : ∀ x, InBytes base len x → State.readByte s x = State.readByte s' x) {a : Nat}
    (h1 : base ≤ a) (h2 : a + 8 ≤ base + len) : load64z s a = load64z s' a := by
  have e : ∀ i, i < 8 → State.readByte s (a + i) = State.readByte s' (a + i) := fun i hi =>
    h _ (by unfold InBytes; omega)
  have e0 := e 0 (by omega)
  rw [Nat.add_zero] at e0
  simp [load64z, V128.ofFn, e, e0]

theorem loadSchedule_of_agree (h : ∀ x, InBytes base len x → State.readByte s x = State.readByte s' x) {a n : Nat}
    (h1 : base ≤ a) (h2 : a + 16 * n ≤ base + len) : loadSchedule s a n = loadSchedule s' a n := by
  induction n generalizing a with
  | zero => rfl
  | succ n ih => rw [loadSchedule, loadSchedule, ih (by omega) (by omega), load128_of_agree h h1 (by omega)]

/-- Two states that agree on the source footprint give a command the same schedule. -/
theorem scheduleOf_of_agree {i : Instr} {f : Footprint} (hf : commandFootprint i = some f)
    (h : ∀ x, InBytes f.src f.slen x → State.readByte s x = State.readByte s' x) : scheduleOf i s = scheduleOf i s' := by
  cases i <;> simp only [commandFootprint, Option.some.injEq, reduceCtorEq] at hf <;> subst hf <;>
    dsimp only at h <;> simp only [scheduleOf]
  · rw [load128_of_agree h (by omega) (by omega)]
  · rw [load128_of_agree h (by omega) (by omega), load64z_of_agree h (by omega) (by omega)]
  · rw [load128_of_agree h (by omega) (by omega), load128_of_agree h (by omega) (by omega)]
  all_goals rw [loadSchedule_of_agree h (by omega) (by omega)]

/-! ## Words and halves of a round key in memory (R7, R22) -/

/-- Word `4*i + j` of a schedule is word `j` of round key `i`. -/
theorem wordAt_eq_load128 (s : State) (b n i j : Nat) (h : n = 4 * i + j) (hj : j < 4) :
    wordAt s (b + 4 * n) = V128.word (load128 s (b + 16 * i)) ⟨j, hj⟩ := by
  subst h
  have : j = 0 ∨ j = 1 ∨ j = 2 ∨ j = 3 := by omega
  rcases this with rfl | rfl | rfl | rfl <;> simp [wordAt, load128, V128.ofFn, V128.word] <;> ring_nf <;> simp

/-- Halves `2*i` and `2*i + 1` of a schedule are the halves of round key `i`. -/
theorem halfAt_eq_load128 (s : State) (b i : Nat) :
    halfAt s (b + 8 * (2 * i)) = V128.lo (load128 s (b + 16 * i))
      ∧ halfAt s (b + 8 * (2 * i + 1)) = V128.hi (load128 s (b + 16 * i)) := by
  constructor <;> simp [halfAt, wordAt, load128, V128.ofFn, V128.lo, V128.hi] <;> ring_nf <;> simp

/-! ## The elements of an expansion -/

/-- Round key `i + 1` of EXPAND.128's loop, from round key `i` (R110). -/
theorem roundKey_expand128From (p : Path) (prev : V128) (rcs : List Byte) (i : Nat) (h : i < rcs.length) :
    roundKey (prev :: expand128From p prev rcs) (i + 1)
      = V128.xor (ripple (roundKey (prev :: expand128From p prev rcs) i))
          (subrot (roundKey (prev :: expand128From p prev rcs) i) (rcs.getD i 0) p) := by
  induction rcs generalizing prev i with
  | nil => simp at h
  | cons rc rcs ih =>
    cases i with
    | zero => rfl
    | succ i => exact ih _ i (by simpa using h)

/-- Round keys `2*i + 2` and `2*i + 3` of EXPAND.256's loop (R136 to R138). -/
theorem roundKey_expand256From (p : Path) (x y : V128) (rcs : List Byte) (i : Nat) (h : i < rcs.length) :
    roundKey (x :: y :: expand256From p x y rcs) (2 * i + 2)
        = typeA p (roundKey (x :: y :: expand256From p x y rcs) (2 * i))
            (roundKey (x :: y :: expand256From p x y rcs) (2 * i + 1)) (rcs.getD i 0)
      ∧ (i + 1 < rcs.length →
          roundKey (x :: y :: expand256From p x y rcs) (2 * i + 3)
            = typeB p (roundKey (x :: y :: expand256From p x y rcs) (2 * i + 1))
                (roundKey (x :: y :: expand256From p x y rcs) (2 * i + 2))) := by
  induction rcs generalizing x y i with
  | nil => simp at h
  | cons rc rcs ih =>
    cases rcs with
    | nil => cases i with
      | zero => exact ⟨rfl, by simp⟩
      | succ i => simp at h
    | cons rc' rcs =>
      cases i with
      | zero => exact ⟨rfl, fun _ => rfl⟩
      | succ i =>
        have := ih (typeA p x y rc) (typeB p y (typeA p x y rc)) i (by simpa using h)
        exact ⟨this.1, fun h => this.2 (by simpa using h)⟩

end Sys2Proof.Machine
end

