-- ==== Sys2Proof/Laws/Sequencer.lean ====
section
/-! SUPPORT. Everything an issued word and a step can do, said once. -/

namespace Sys2Proof.Machine

theorem flagF_moves (s : State) (ms : List HostMove) : flagF { s with moves := ms } = flagF s := rfl

/-- A step whose next move issues a word is the sequencer's step on it (R201). -/
theorem step_of_issue {s : State} {w : Word} {rest : List HostMove} (h : s.moves = .issue w :: rest) :
    step s = issueWord w { s with moves := rest } := by
  simp [step, takeMove, h, hostMove]

/-- An issued word is refused (R180), faults (R179), or is a ready command that is performed. The fault's word is left
open here: it is `w`. -/
theorem issueWord_cases {w : Word} {s t : State} (h : issueWord w s = .next t) :
    (flagF s = true ∧ t = refuse s)
      ∨ (∃ c w', flagF s = false ∧ t = raiseFault c w' s)
      ∨ (∃ i, decode w = .ok i ∧ Ready s i ∧ t = consume .performed (performOf i s)) := by
  unfold issueWord at h
  split at h
  · cases h
    exact .inl ⟨by assumption, rfl⟩
  · rename_i hf
    split at h
    · rename_i i hi
      rcases exec_cases h with ⟨h1, h2⟩ | ⟨c, h1, _, h3⟩ | ⟨h1, h2⟩
      · exact .inl ⟨h1, h2⟩
      · exact .inr (.inl ⟨c, encode i, h1, h3⟩)
      · exact .inr (.inr ⟨i, hi, h1, h2⟩)
    · cases h
      exact .inr (.inl ⟨_, w, by simpa using hf, rfl⟩)

/-- An issued word always ends in a next state (R170, R199). -/
theorem issueWord_total (w : Word) (s : State) : ∃ t, issueWord w s = .next t := by
  unfold issueWord
  split
  · exact ⟨_, rfl⟩
  · split
    · rw [exec_eq_command]; exact command_total ..
    · exact ⟨_, rfl⟩

/-- The five ways a step can end in a next state: no move was pending; a reset; a host write; a reading move; an issued
word. -/
theorem step_cases {s t : State} (h : step s = .next t) :
    (s.moves = [] ∧ t = s)
      ∨ (∃ rest, s.moves = .reset :: rest ∧ t = resetEntry { s with moves := rest })
      ∨ (∃ rest a bs, s.moves = .write a bs :: rest ∧ bs ≠ [] ∧ a + bs.length ≤ s.cfg.memBytes
          ∧ t = State.memWrite { s with moves := rest } a bs)
      ∨ (∃ m rest o, s.moves = m :: rest ∧ ((∃ a n, m = .read a n) ∨ ∃ r, m = .readReg r)
          ∧ t = { s with moves := rest, obs := s.obs ++ [o] })
      ∨ (∃ rest w, s.moves = .issue w :: rest ∧ issueWord w { s with moves := rest } = .next t) := by
  unfold step takeMove at h
  split at h
  · cases h
    exact .inl ⟨by assumption, rfl⟩
  rename_i m rest hm
  unfold hostMove at h
  cases m with
  | reset => cases h; exact .inr (.inl ⟨rest, hm, rfl⟩)
  | write a bs =>
    dsimp only at h
    unfold hostWrite at h
    split_ifs at h with h1 h2
    cases h
    exact .inr (.inr (.inl ⟨rest, a, bs, hm, by simpa using h1, h2, rfl⟩))
  | read a n =>
    dsimp only at h
    unfold hostRead at h
    split_ifs at h
    cases h
    exact .inr (.inr (.inr (.inl ⟨_, rest, _, hm, .inl ⟨a, n, rfl⟩, rfl⟩)))
  | readReg r => cases h; exact .inr (.inr (.inr (.inl ⟨_, rest, _, hm, .inr ⟨r, rfl⟩, rfl⟩)))
  | issue w => exact .inr (.inr (.inr (.inr ⟨rest, w, hm, h⟩)))

end Sys2Proof.Machine
end

