-- ==== Sys2Proof/Tests/Slice0.lean ====
section
/-! SUPPORT. Tests of the model on the spec's own vectors (`95_test_vectors.md`), the ill-formed terms each check refuses,
and a witness for the hypotheses of every statement. -/

namespace Sys2Proof.Tests

open Sys2Proof.Machine

/-! ## Decoding: the words of `95_test_vectors.md` section 6, written out from R51: dst, src, z7, p, sel, op -/

theorem test_decode_expand128 :
    decode 0b000100000000_000000000000_0_0_00_0001#32 = .ok (.expand128 0x100#12 0x000#12 .assisted) := by decide
theorem test_decode_expand128_emulated :
    decode 0b000100000000_000000000000_0_1_00_0001#32 = .ok (.expand128 0x100#12 0x000#12 .emulated) := by decide
theorem test_decode_expand192 :
    decode 0b000100000000_000001000000_0_0_01_0001#32 = .ok (.expand192 0x100#12 0x040#12 .assisted) := by decide
theorem test_decode_expand192_emulated :
    decode 0b000100000000_000001000000_0_1_01_0001#32 = .ok (.expand192 0x100#12 0x040#12 .emulated) := by decide
theorem test_decode_expand256 :
    decode 0b001000000000_000000100000_0_0_10_0001#32 = .ok (.expand256 0x200#12 0x020#12 .assisted) := by decide
theorem test_decode_expand256_emulated :
    decode 0b001000000000_000000100000_0_1_10_0001#32 = .ok (.expand256 0x200#12 0x020#12 .emulated) := by decide
theorem test_decode_todec128 :
    decode 0b001000000000_000100000000_0_0_00_0010#32 = .ok (.todec128 0x200#12 0x100#12) := by decide
theorem test_decode_todec192 :
    decode 0b001011010000_000100000000_0_0_01_0010#32 = .ok (.todec192 0x2D0#12 0x100#12) := by decide
theorem test_decode_todec256 :
    decode 0b001100000000_001000000000_0_0_10_0010#32 = .ok (.todec256 0x300#12 0x200#12) := by decide
theorem test_decode_rounds128 : decode 0b000000000000_000000000000_0_0_00_0011#32 = .ok .rounds128 := by decide
theorem test_decode_rounds192 : decode 0b000000000000_000000000000_0_0_01_0011#32 = .ok .rounds192 := by decide
theorem test_decode_rounds256 : decode 0b000000000000_000000000000_0_0_10_0011#32 = .ok .rounds256 := by decide
theorem test_decode_keybytes128 : decode 0b000000000000_000000000000_0_0_00_0100#32 = .ok .keybytes128 := by decide
theorem test_decode_keybytes192 : decode 0b000000000000_000000000000_0_0_01_0100#32 = .ok .keybytes192 := by decide
theorem test_decode_keybytes256 : decode 0b000000000000_000000000000_0_0_10_0100#32 = .ok .keybytes256 := by decide

/-- The words of section 6 that are no command, by cause. -/
theorem test_decode_illegal :
    [0x00000000#32, 0x00000005#32, 0x0000000F#32, 0xFFFFFFFF#32, 0x00000081#32, 0x10010042#32, 0x00000043#32,
      0x00000103#32, 0x00100004#32, 0x000000B1#32].map decode = List.replicate 10 (.error .illegalCmd) := by decide
theorem test_decode_badSelector :
    [0x10000031#32, 0x30020032#32, 0x00000033#32, 0x00000034#32].map decode
      = List.replicate 4 (.error .badSelector) := by decide

/-- Encoding: section 6 and the words of the programs' lines (R59, R60). -/
theorem test_encode : encode (.todec192 0x2D0#12 0x100#12) = 0x2D010012#32 := by decide
theorem test_assemble :
    assemble (.expand .k192 (some .emulated) 0x100 0x040) = some 0x10004051#32
      ∧ assemble (.expandPseudo 0x100 0x000 .k128) = some 0x10000001#32
      ∧ assemble (.word 0xB1) = some 0x000000B1#32 := by decide

/-- The host's reading of a table row's word. -/
theorem test_decodeTableWord : decodeTableWord 32 0x24 = some .keybytes256 ∧ decodeTableWord 32 0x31 = none := by decide

/-! ## Well-formedness: an ill-formed term for each check -/

theorem test_isCommand_refuses : Word.isCommand 0x00000000#32 = false ∧ Word.isCommand 0x00000031#32 = false := by decide
theorem test_matchesWord_refuses : OpcodeRow.matchesWord (Instr.row .rounds128) 0x00000103#32 = false := by decide
theorem test_asmLine_wf_refuses_dst :
    AsmLine.wf (.expand .k128 none 4096 0) = false ∧ AsmLine.wf (.todec .k128 4096 0) = false
      ∧ AsmLine.wf (.expandPseudo 4096 0 .k128) = false := by decide
theorem test_asmLine_wf_refuses_src :
    AsmLine.wf (.expand .k128 none 0 4096) = false ∧ AsmLine.wf (.todec .k128 0 4096) = false
      ∧ AsmLine.wf (.expandPseudo 0 4096 .k128) = false := by decide
theorem test_asmLine_wf_refuses_word : AsmLine.wf (.word (2 ^ 32)) = false := by decide
theorem test_config_wf_refuses :
    Config.wf { memBytes := 4097, hasAssist := true, hasEmul := true } = false
      ∧ Config.wf { memBytes := 4096, hasAssist := false, hasEmul := false } = false := by decide
theorem test_hostMove_wf_refuses :
    HostMove.wf Config.example4096 (.write 0 []) = false
      ∧ HostMove.wf Config.example4096 (.write 4095 [0x00#8, 0x00#8]) = false
      ∧ HostMove.wf Config.example4096 (.read 4095 2) = false := by decide

/-! ## The datapath: `95_test_vectors.md` section 5 -/

/-- Sixteen bytes as the spec prints them, byte 0 first. -/
def v128 (x : BitVec 128) : V128 := V128.ofFn (fun i => x.extractLsb' (120 - 8 * i.val) 8)

theorem test_field : xtime 0xFF#8 = 0xE5#8 ∧ gmul 0x57#8 0x83#8 = 0xC1#8 ∧ gmul 0xFF#8 0x0E#8 = 0x8D#8 := by decide
theorem test_sbox : sbox 0x53#8 = 0xED#8 ∧ sbox 0xCF#8 = 0x8A#8 ∧ invSbox 0x16#8 = 0xFF#8 := by decide
theorem test_rcon : rcon 9 = 0x1B#8 ∧ rcon 10 = 0x36#8 := by decide
theorem test_fwdRound :
    fwdRound (v128 0x193de3bea0f4e22b9ac68d2ae9f84808#128) (v128 0xa0fafe1788542cb123a339392a6c7605#128)
      = v128 0xa49c7ff2689f352b6b5bea43026a5049#128 := by decide
theorem test_fwdLast :
    fwdLast (v128 0x193de3bea0f4e22b9ac68d2ae9f84808#128) (v128 0xa0fafe1788542cb123a339392a6c7605#128)
      = v128 0x7445a32768e07e1f9be228c8344beee0#128 := by decide
theorem test_invRound :
    invRound (v128 0xa49c7ff2689f352b6b5bea43026a5049#128) (v128 0xa0fafe1788542cb123a339392a6c7605#128)
      = v128 0x85348c7b52e9b0a9a031873261ca552b#128 := by decide
theorem test_invLast :
    invLast (v128 0xd4bf5d30e0b452aeb84111f11e2798e5#128) V128.zero
      = v128 0x193de3bea0f4e22b9ac68d2ae9f84808#128 := by decide
theorem test_imc :
    imc (v128 0xa0fafe1788542cb123a339392a6c7605#128) = v128 0x2b3708a7f262d405bc3ebdbf4b617d62#128 := by decide
theorem test_keygenAssist :
    keygenAssist (v128 0x2b7e151628aed2a6abf7158809cf4f3c#128) 0x01#8
      = v128 0x34e4b524e5b52434018a84eb8b84eb01#128 := by decide
theorem test_ripple :
    ripple (v128 0x2b7e151628aed2a6abf7158809cf4f3c#128) = v128 0x2b7e151603d0c7b0a827d238a1e89d04#128 := by decide
theorem test_pack :
    packLL (v128 0x000102030405060708090a0b0c0d0e0f#128) (v128 0x101112131415161718191a1b1c1d1e1f#128)
        = v128 0x00010203040506071011121314151617#128
      ∧ packHL (v128 0x000102030405060708090a0b0c0d0e0f#128) (v128 0x101112131415161718191a1b1c1d1e1f#128)
        = v128 0x08090a0b0c0d0e0f1011121314151617#128 := by decide

/-! ## One step of each expander's loop and of the converter: sections 3 and 4 -/

/-- 4.1, `i = 10`, the last constant, on the emulated path. -/
theorem test_expand128_last_round_key :
    expand128From .emulated (v128 0xac7766f319fadc2128d12941575c006e#128) [0x36#8]
      = [v128 0xd014f9a8c9ee2589e13f0cc8b6630ca6#128] := by decide
/-- 4.2, `n = 1`: the whole of `A_1` and `B_1`, the by-products of `B_1` among them. -/
theorem test_expand192_assist_step :
    a192 (v128 0x8e73b0f7da0e6452c810f32b809079e5#128) (v128 0x62f8ead2522c6b7b0000000000000000#128) 0x01#8
      = (v128 0xfe0c91f72402f5a5ec12068e6c827f6b#128, v128 0x0e7a95b95c56fec23eae14106c827f6b#128) := by decide
/-- 4.2, `n = 8`: the last step of the emulated path makes `h[24]` and `h[25]` only. -/
theorem test_expand192_last_halves :
    halves192 (V128.lo (v128 0x821f750aad07d7530000000000000000#128)) (V128.lo (v128 0xca4005388fcc50060000000000000000#128))
        (V128.lo (v128 0x282d166abc3ce7b50000000000000000#128)) [0x80#8]
      = [V128.lo (v128 0xe98ba06f448c773c0000000000000000#128), V128.lo (v128 0x8ecc7204010022020000000000000000#128)] := by
  decide
/-- 4.3, K-ZERO: round key 2 by a type A step, round key 3 by a type B step, without a constant (R142). -/
theorem test_expand256_typeA : typeA .assisted V128.zero V128.zero 0x01#8 = v128 0x62636363626363636263636362636363#128 := by
  decide
theorem test_expand256_typeB :
    typeB .emulated V128.zero (v128 0x62636363626363636263636362636363#128)
      = v128 0xaafbfbfbaafbfbfbaafbfbfbaafbfbfb#128 := by decide
/-- 3.1, 3.2, 3.3, DEC K-ONES: `dec[0]`, an interior element, and the last. Elements that are not looked at are zero. -/
theorem test_todec128 :
    let dec := convert [v128 0xffffffffffffffffffffffffffffffff#128, v128 0xe8e9e9e917161616e8e9e9e917161616#128, V128.zero,
      V128.zero, V128.zero, V128.zero, V128.zero, V128.zero, V128.zero, V128.zero,
      v128 0xd60a3588e472f07b82d2d7858cd7c326#128] 10
    roundKey dec 0 = v128 0xd60a3588e472f07b82d2d7858cd7c326#128
      ∧ roundKey dec 9 = v128 0xe7e0e4e2181f1b1de7e0e4e2181f1b1d#128
      ∧ roundKey dec 10 = v128 0xffffffffffffffffffffffffffffffff#128 := by decide

/-! ## One step on a small state -/

/-- The state after reset with the host's moves `ms` to come. -/
def withMoves (ms : List HostMove) : State := { State.reset with moves := ms }

/-- The state after reset, on another instance. -/
def onInstance (c : Config) (ms : List HostMove) : State := { State.reset with cfg := c, moves := ms }

/-- The state after reset with a fault of cause 4 recorded. -/
def faulted (ms : List HostMove) : State := { State.reset with status := 0x41#32, fcmd := 0xF5100001#32, moves := ms }

/-- `RES`, `STATUS`, `FCMD` and the report after one step. -/
def view (s : State) : Option (Word × Word × Word × Report) :=
  match step s with
  | .next t => some (t.res, t.status, t.fcmd, t.report)
  | .fault _ => none
  | .refused _ => none

/-- Section 7: `EXPAND.128 0xF50, 0x000` is performed and `0xF51` is out of range. -/
theorem test_step_expand128_fits : view (withMoves [.issue 0xF5000001#32]) = some (0#32, 0#32, 0#32, .performed) := by decide
theorem test_step_expand128_range :
    view (withMoves [.issue 0xF5100001#32]) = some (0#32, 0x41#32, 0xF5100001#32, .faulted .range) := by decide
/-- Section 7: `EXPAND.192 0x017, 0x000` overlaps, `0x018` is performed. -/
theorem test_step_expand192_overlap :
    view (withMoves [.issue 0x01700011#32]) = some (0#32, 0x51#32, 0x01700011#32, .faulted .overlap) := by decide
theorem test_step_expand192_adjacent : view (withMoves [.issue 0x01800011#32]) = some (0#32, 0#32, 0#32, .performed) := by
  decide
/-- Section 7, one path absent. -/
theorem test_step_expand256_path :
    view (onInstance { memBytes := 4096, hasAssist := true, hasEmul := false } [.issue 0x10000061#32])
      = some (0#32, 0x31#32, 0x10000061#32, .faulted .pathUnavailable) := by decide
theorem test_step_expand256_range :
    view (withMoves [.issue 0x000FE121#32]) = some (0#32, 0x41#32, 0x000FE121#32, .faulted .range) := by decide
theorem test_step_todec128_overlap :
    view (withMoves [.issue 0x1AF10002#32]) = some (0#32, 0x51#32, 0x1AF10002#32, .faulted .overlap) := by decide
theorem test_step_todec128_adjacent : view (withMoves [.issue 0x1B010002#32]) = some (0#32, 0#32, 0#32, .performed) := by
  decide
theorem test_step_todec192 : view (withMoves [.issue 0x2D010012#32]) = some (0#32, 0#32, 0#32, .performed) := by decide
theorem test_step_todec256_range :
    view (withMoves [.issue 0x000F1122#32]) = some (0#32, 0x41#32, 0x000F1122#32, .faulted .range) := by decide
/-- R152, R153. -/
theorem test_step_rounds128 : view (withMoves [.issue 0x03#32]) = some (10#32, 0#32, 0#32, .performed) := by decide
theorem test_step_rounds192 : view (withMoves [.issue 0x13#32]) = some (12#32, 0#32, 0#32, .performed) := by decide
theorem test_step_rounds256 : view (withMoves [.issue 0x23#32]) = some (14#32, 0#32, 0#32, .performed) := by decide
theorem test_step_keybytes128 : view (withMoves [.issue 0x04#32]) = some (16#32, 0#32, 0#32, .performed) := by decide
theorem test_step_keybytes192 : view (withMoves [.issue 0x14#32]) = some (24#32, 0#32, 0#32, .performed) := by decide
theorem test_step_keybytes256 : view (withMoves [.issue 0x24#32]) = some (32#32, 0#32, 0#32, .performed) := by decide
/-- Program P4: after a fault a good command is refused and the first fault's record stays. -/
theorem test_step_refused :
    view (faulted [.issue 0x00000003#32]) = some (0#32, 0x41#32, 0xF5100001#32, .refused) := by decide
/-- The host's way of presenting a table row's word. -/
theorem test_withFetchWord :
    view (State.withFetchWord State.reset 32 0x13) = some (12#32, 0#32, 0#32, .performed) := by decide
/-- R80: `LOAD64Z` reads eight bytes and fills the rest with zero; the ninth byte of memory is not read. -/
theorem test_load64z :
    load64z { State.reset with mem := [(0, 0x10#8), (1, 0x11#8), (2, 0x12#8), (3, 0x13#8), (4, 0x14#8), (5, 0x15#8),
      (6, 0x16#8), (7, 0x17#8), (8, 0xEE#8)] } 0 = v128 0x10111213141516170000000000000000#128 := by decide

/-! ## Witnesses: a concrete state and operands that meet the hypotheses of each statement -/

theorem ready_of_perform {s : State} {i : Instr} (h : prologue s (commandPath i) (commandFootprint i) = .perform) :
    Ready s i := (ready_iff_perform s i).2 h

theorem next_of_ready {s : State} {i : Instr} (h : Ready s i) : ∃ t, exec i s = .next t := ⟨_, exec_of_ready h⟩

/-- A schedule that ends at the last byte of memory, and one that starts right after its key. -/
theorem witness_Ready_expand128 (p : Path) :
    Ready State.reset (.expand128 0xF50#12 0x000#12 p) ∧ Ready State.reset (.expand128 0x010#12 0x000#12 p) := by
  cases p <;> exact ⟨ready_of_perform (by decide), ready_of_perform (by decide)⟩
theorem witness_Ready_expand192 (p : Path) :
    Ready State.reset (.expand192 0xF30#12 0x000#12 p) ∧ Ready State.reset (.expand192 0x000#12 0xFE8#12 p) := by
  cases p <;> exact ⟨ready_of_perform (by decide), ready_of_perform (by decide)⟩
theorem witness_Ready_expand256 (p : Path) :
    Ready State.reset (.expand256 0xF10#12 0x000#12 p) ∧ Ready State.reset (.expand256 0x020#12 0x000#12 p) := by
  cases p <;> exact ⟨ready_of_perform (by decide), ready_of_perform (by decide)⟩
theorem witness_Ready_todec :
    Ready State.reset (.todec128 0x050#12 0x100#12) ∧ Ready State.reset (.todec192 0x2D0#12 0x100#12)
      ∧ Ready State.reset (.todec256 0x000#12 0xF10#12) :=
  ⟨ready_of_perform (by decide), ready_of_perform (by decide), ready_of_perform (by decide)⟩

theorem witness_EncodeOfDecode : decode 0xF5000041#32 = .ok (.expand128 0xF50#12 0x000#12 .emulated) := by decide
theorem witness_DecoderAcceptsExactlyTheRows :
    decode 0xFFFFFF22#32 = .ok (.todec256 0xFFF#12 0xFFF#12) ∧ Word.isCommand 0xFFFFFF22#32 = true := by decide
theorem witness_OpcodeRowsAreDisjoint :
    Instr.row .rounds128 ∈ opcodeRows ∧ (Instr.row .rounds128).matchesWord 0x00000003#32 = true := by decide
/-- Each clause at a boundary: `op` 5, `z7`, and an operand of ROUNDS; `sel = 3` on a legal word; the last legal `op`. -/
theorem witness_DecoderAppliesTheTestsInOrder :
    (WordIllegal 0x00000005#32 ∧ WordIllegal 0x00000081#32 ∧ WordIllegal 0x00000103#32)
      ∧ (¬ WordIllegal 0x00000034#32 ∧ numSel 0x00000034#32 = 3)
      ∧ (¬ WordIllegal 0x00000024#32 ∧ numSel 0x00000024#32 ≠ 3) := by decide
/-- Each clause at a boundary: the largest operand and the first too large, the largest raw word and the first too
large, and a line with its command. -/
theorem witness_AssemblerWordsDecode :
    (4095 ≤ 4095 ∧ 0 ≤ 4095 ∧ assemble (.todec .k192 4095 0) = some 0xFFF00012#32)
      ∧ (2 ^ 32 - 1 < 2 ^ 32 ∧ assemble (.word (2 ^ 32 - 1)) = some 0xFFFFFFFF#32)
      ∧ (4095 < 4096 ∧ assemble (.expandPseudo 0 4096 .k128) = none)
      ∧ (2 ^ 32 ≤ 2 ^ 32 ∧ assemble (.word (2 ^ 32)) = none)
      ∧ AsmLine.command (.todec .k192 4095 0) = some (.todec192 0xFFF#12 0x000#12) := by decide
theorem witness_StepRunsTheDecodedCommand :
    (withMoves [.issue 0x00000013#32, .reset]).moves = [.issue 0x00000013#32, .reset]
      ∧ decode 0x00000013#32 = .ok .rounds192 := by decide
theorem witness_UndecodableWordsFault :
    flagF (withMoves [.issue 0x000000B1#32]) = false ∧ WordIllegal 0x000000B1#32
      ∧ ¬ WordIllegal 0xFFF00031#32 ∧ numSel 0xFFF00031#32 = 3 := by decide
theorem witness_FaultedMachineRefusesEveryCommand :
    flagF (faulted [.issue 0x00000003#32]) = true ∧ flagF (faulted [.write 4095 [0x01#8]]) = true
      ∧ (faulted [.write 4095 [0x01#8]]).moves = [.write 4095 [0x01#8]] ∧ ([0x01#8] : List Byte) ≠ []
      ∧ 4095 + 1 ≤ (faulted []).cfg.memBytes ∧ (faulted [.read 4095 1]).moves = [.read 4095 1]
      ∧ (faulted [.readReg .fcmd]).moves = [.readReg .fcmd] := by decide
theorem witness_ExpandFaultsOnAbsentPath :
    commandPath (.expand192 0x100#12 0x000#12 .assisted) = some .assisted
      ∧ flagF (onInstance { memBytes := 4096, hasAssist := false, hasEmul := true } []) = false
      ∧ (onInstance { memBytes := 4096, hasAssist := false, hasEmul := true } []).cfg.hasAssist = false
      ∧ (onInstance { memBytes := 4096, hasAssist := true, hasEmul := false } []).cfg.hasEmul = false := by decide
/-- One byte too far, at either footprint. -/
theorem witness_OutOfRangeFootprintFaults :
    commandFootprint (.todec256 0x000#12 0xF11#12) = some ⟨3857, 240, 0, 240⟩ ∧ 3857 + 240 > State.reset.cfg.memBytes
      ∧ commandFootprint (.todec256 0xF11#12 0x000#12) = some ⟨0, 240, 3857, 240⟩
      ∧ flagF State.reset = false := by decide
theorem witness_PathOk_todec256 (dst src : Addr) : PathOk State.reset.cfg (.todec256 dst src) := by
  intro p h; simp [commandPath] at h
/-- One byte shared. -/
theorem witness_OverlappingFootprintsFault :
    commandFootprint (.todec128 0x1AF#12 0x100#12) = some ⟨256, 176, 431, 176⟩ ∧ flagF State.reset = false
      ∧ PathOk State.reset.cfg (.todec128 0x1AF#12 0x100#12) ∧ Footprint.Fits State.reset.cfg ⟨256, 176, 431, 176⟩
      ∧ 256 < 431 + 176 ∧ 431 < 256 + 176 := by
  refine ⟨by decide, by decide, fun p h => ?_, ⟨by decide, by decide⟩, by decide, by decide⟩
  simp [commandPath] at h
/-- The five causes and a performed word, each with every later violation present too. -/
theorem witness_FirstViolationIsReported :
    flagF (withMoves [.issue 0xFFFFFFF1#32]) = false ∧ flagF (faulted [.issue 0xFFFFFFF1#32]) = true
      ∧ wordReport Config.example4096 0xFFFFFFF1#32 = .faulted .illegalCmd
      ∧ wordReport Config.example4096 0xFFFFFF31#32 = .faulted .badSelector
      ∧ wordReport { memBytes := 4096, hasAssist := false, hasEmul := true } 0xFFFFFF01#32 = .faulted .pathUnavailable
      ∧ wordReport Config.example4096 0xFFFFFF01#32 = .faulted .range
      ∧ wordReport Config.example4096 0x00F00001#32 = .faulted .overlap
      ∧ wordReport Config.example4096 0x01000001#32 = .performed := by decide
/-- A word whose step is refused, and one that faults. -/
theorem witness_FirstViolation_unperformed :
    (∃ t, step (withMoves [.issue 0x00000000#32]) = .next t ∧ t.report ≠ .performed)
      ∧ ∃ t, step (faulted [.issue 0x00000003#32]) = .next t ∧ t.report = .refused :=
  ⟨⟨_, rfl, by decide⟩, ⟨_, rfl, by decide⟩⟩
/-- The first and the last cause. -/
theorem witness_FaultEntryIsExact :
    (∃ t, step (withMoves [.issue 0x00000000#32]) = .next t ∧ t.report = .faulted .illegalCmd)
      ∧ ∃ t, step (withMoves [.issue 0x00F00001#32]) = .next t ∧ t.report = .faulted .overlap :=
  ⟨⟨_, rfl, by decide⟩, ⟨_, rfl, by decide⟩⟩
/-- The three clauses of `PrologueFaults`: an absent path, one byte too far, one byte shared. -/
theorem witness_PrologueFaults :
    (flagF State.reset = false
      ∧ ¬ PathOk { memBytes := 4096, hasAssist := false, hasEmul := true } (.expand128 0x100#12 0x000#12 .assisted))
      ∧ (PathOk State.reset.cfg (.expand192 0x000#12 0xFE9#12 .assisted)
        ∧ ¬ FitsOk State.reset.cfg (.expand192 0x000#12 0xFE9#12 .assisted))
      ∧ (PathOk State.reset.cfg (.expand256 0x01F#12 0x000#12 .emulated)
        ∧ FitsOk State.reset.cfg (.expand256 0x01F#12 0x000#12 .emulated)
        ∧ ¬ DisjointOk (.expand256 0x01F#12 0x000#12 .emulated)) := by
  refine ⟨⟨by decide, fun h => absurd (h .assisted rfl) (by decide)⟩, ⟨fun p h => ?_, fun h => ?_⟩,
    ⟨fun p h => ?_, fun f h => ?_, fun h => ?_⟩⟩
  · cases h; decide
  · exact absurd (h _ rfl).1 (by decide)
  · cases h; decide
  · cases h; exact ⟨by decide, by decide⟩
  · exact h _ rfl 31 ⟨by decide, by decide⟩ ⟨by decide, by decide⟩
/-- The two clauses of `AccessorFaults`, for each `op`. -/
theorem witness_AccessorFaults :
    (withMoves [.issue 0x00000103#32]).moves = [.issue 0x00000103#32] ∧ flagF (withMoves []) = false
      ∧ (numOp 0x00000103#32 = 3 ∧ numSrc 0x00000103#32 ≠ 0) ∧ (numOp 0x00100004#32 = 4 ∧ numDst 0x00100004#32 ≠ 0)
      ∧ (numOp 0x00000033#32 = 3 ∧ numP 0x00000033#32 = 0 ∧ numZ7 0x00000033#32 = 0 ∧ numSrc 0x00000033#32 = 0
        ∧ numDst 0x00000033#32 = 0 ∧ numSel 0x00000033#32 = 3)
      ∧ numOp 0x00000034#32 = 4 ∧ numSel 0x00000034#32 = 3 := by decide
/-- The two clauses of `TodecWordFaults`. -/
theorem witness_TodecWordFaults :
    (numOp 0x10010042#32 = 2 ∧ numP 0x10010042#32 = 1)
      ∧ numOp 0x30020032#32 = 2 ∧ numP 0x30020032#32 = 0 ∧ numZ7 0x30020032#32 = 0 ∧ numSel 0x30020032#32 = 3 := by decide
theorem witness_PathsWriteTheSameBytes (k : KeySize) :
    Ready State.reset (dispatchExpand k 0x100#12 0x000#12 .assisted)
      ∧ Ready State.reset (dispatchExpand k 0x100#12 0x000#12 .emulated) := by
  cases k <;> exact ⟨ready_of_perform (by decide), ready_of_perform (by decide)⟩
theorem witness_ExpandFrame :
    (∃ t, exec (.expand128 0xF50#12 0x000#12 .assisted) State.reset = .next t)
      ∧ (∃ t, exec (.expand192 0xF30#12 0x000#12 .emulated) State.reset = .next t)
      ∧ ∃ t, exec (.expand256 0xF10#12 0x000#12 .assisted) State.reset = .next t :=
  ⟨next_of_ready (witness_Ready_expand128 _).1, next_of_ready (witness_Ready_expand192 _).1,
    next_of_ready (witness_Ready_expand256 _).1⟩
theorem witness_TodecFrame :
    (∃ t, exec (.todec128 0x050#12 0x100#12) State.reset = .next t)
      ∧ (∃ t, exec (.todec192 0x2D0#12 0x100#12) State.reset = .next t)
      ∧ ∃ t, exec (.todec256 0x000#12 0xF10#12) State.reset = .next t :=
  ⟨next_of_ready witness_Ready_todec.1, next_of_ready witness_Ready_todec.2.1, next_of_ready witness_Ready_todec.2.2⟩
/-- Two schedules of each length, of which one is not zero. -/
theorem witness_ConvertIsLinear (k : KeySize) :
    (List.replicate (schedLen k) V128.zero).length = schedLen k
      ∧ (List.replicate (schedLen k) (v128 0x000102030405060708090a0b0c0d0e0f#128)).length = schedLen k := by simp
theorem witness_RoundsWritesRes : flagF State.reset = false := by decide
theorem witness_KeybytesWritesRes : flagF (withMoves [.issue 0x00000004#32]) = false := by decide
theorem witness_AccessorFrame : ∃ t, exec .keybytes256 State.reset = .next t := ⟨_, rfl⟩
theorem witness_SboxIsTheFormula : gmul 0x02#8 0x8D#8 = 1#8 := by decide
theorem witness_FieldLaws : (0x57#8 : Byte) ≠ 0#8 ∧ gmul 0x02#8 0x8D#8 = 1#8 := by decide
theorem witness_ShiftRowsRotatesRows :
    (v128 0xcf4f3c09cf4f3c09cf4f3c09cf4f3c09#128).w0 = (v128 0xcf4f3c09cf4f3c09cf4f3c09cf4f3c09#128).w1
      ∧ (v128 0xcf4f3c09cf4f3c09cf4f3c09cf4f3c09#128).w2 = (v128 0xcf4f3c09cf4f3c09cf4f3c09cf4f3c09#128).w3 := by decide
theorem witness_RconDoubles : 1 ≤ 9 ∧ 9 ≤ 9 := by decide
theorem witness_ExpandThenTodecDecrypts (k : KeySize) (p : Path) :
    Ready State.reset (dispatchExpand k 0x100#12 0x000#12 p) ∧ Ready State.reset (todecOf k 0x300#12 0x100#12) := by
  cases k <;> cases p <;> exact ⟨ready_of_perform (by decide), ready_of_perform (by decide)⟩
/-- A write that ends at the last byte of memory. -/
theorem witness_HostWriteStores :
    (withMoves [.write 4094 [0xAA#8, 0xBB#8]]).moves = [.write 4094 [0xAA#8, 0xBB#8]]
      ∧ ([0xAA#8, 0xBB#8] : List Byte) ≠ [] ∧ 4094 + 2 ≤ State.reset.cfg.memBytes := by decide
/-- A read of the last byte, of no byte at the end, and of each register. -/
theorem witness_HostReadsReturn :
    (withMoves [.read 4095 1]).moves = [.read 4095 1] ∧ 4095 + 1 ≤ State.reset.cfg.memBytes
      ∧ 4096 + 0 ≤ State.reset.cfg.memBytes ∧ (withMoves [.readReg .res]).moves = [.readReg .res]
      ∧ (withMoves [.readReg .status]).moves = [.readReg .status]
      ∧ (withMoves [.readReg .fcmd]).moves = [.readReg .fcmd] := by decide
theorem witness_HostResetClears : (faulted [.reset]).moves = [.reset] := by decide
/-- The first byte past the end of memory, and the empty write. -/
theorem witness_InexpressibleMovesStop :
    (withMoves [.read 4096 1]).moves = [.read 4096 1] ∧ State.reset.cfg.memBytes < 4096 + 1
      ∧ (withMoves [.write 4095 [0xAA#8, 0xBB#8]]).moves = [.write 4095 [0xAA#8, 0xBB#8]]
      ∧ State.reset.cfg.memBytes < 4095 + 2 ∧ (withMoves [.write 0 []]).moves = [.write 0 []] := by decide
theorem witness_RunsEnd :
    MovesOk (withMoves [.write 0 [0x00#8], .issue 0x00000003#32, .read 4095 1, .reset]) ∧ RunEnded State.reset := by
  refine ⟨fun m hm => ?_, rfl⟩
  revert m
  decide
/-- The invariants hold at reset, and a step from there ends in a next state; so does one that faults. -/
theorem witness_MemoryStaysCanonical :
    MemCanonical (withMoves [.write 4095 [0x01#8]])
      ∧ ∃ t, step (withMoves [.write 4095 [0x01#8]]) = .next t := ⟨rfl, ⟨_, rfl⟩⟩
theorem witness_FaultRecordStaysLegal :
    FaultRecordLegal (withMoves [.issue 0x00000000#32])
      ∧ ∃ t, step (withMoves [.issue 0x00000000#32]) = .next t := ⟨.inl ⟨rfl, rfl⟩, ⟨_, rfl⟩⟩
theorem witness_ResStaysLegal :
    ResLegal (withMoves [.issue 0x00000024#32])
      ∧ ∃ t, step (withMoves [.issue 0x00000024#32]) = .next t := ⟨.inl rfl, ⟨_, rfl⟩⟩
theorem witness_OnlyResetClearsAFault :
    flagF (faulted [.issue 0x00000003#32]) = true ∧ (faulted [.issue 0x00000003#32]).moves.head? ≠ some .reset
      ∧ ∃ t, step (faulted [.issue 0x00000003#32]) = .next t := ⟨by decide, by decide, ⟨_, rfl⟩⟩
theorem witness_ParametersNeverChange : ∃ t, step (withMoves [.reset]) = .next t := ⟨_, rfl⟩
/-- Every clause: a performed and a refused command, a reset, a write, a read, a register read. -/
theorem witness_CmdIdxCountsConsumedCommands :
    (∃ t, step (withMoves [.issue 0x00000003#32]) = .next t) ∧ (∃ t, step (faulted [.issue 0x00000003#32]) = .next t)
      ∧ (∃ t, step (withMoves [.reset]) = .next t) ∧ (∃ t, step (withMoves [.write 0 [0x01#8]]) = .next t)
      ∧ (∃ t, step (withMoves [.read 0 1]) = .next t) ∧ ∃ t, step (withMoves [.readReg .res]) = .next t :=
  ⟨⟨_, rfl⟩, ⟨_, rfl⟩, ⟨_, rfl⟩, ⟨_, rfl⟩, ⟨_, rfl⟩, ⟨_, rfl⟩⟩
/-- A byte that held 1 is written with 2: it reads otherwise after the step. -/
theorem witness_OnlyNamedMovesWriteMemory :
    ∃ t, step { withMoves [.write 0 [0x02#8]] with mem := [(0, 0x01#8)] } = .next t
      ∧ State.readByte t 0 ≠ State.readByte { withMoves [.write 0 [0x02#8]] with mem := [(0, 0x01#8)] } 0 :=
  ⟨_, rfl, by decide⟩
theorem witness_SourceFootprintIsReadOnly :
    commandFootprint (.expand128 0x010#12 0x000#12 .assisted) = some ⟨0, 16, 16, 176⟩ ∧ InBytes 0 16 15
      ∧ ∃ t, exec (.expand128 0x010#12 0x000#12 .assisted) State.reset = .next t :=
  ⟨by decide, ⟨by decide, by decide⟩, next_of_ready (witness_Ready_expand128 _).2⟩
/-- Two states that differ in a register and in the host's list, with the same bytes at the source. -/
theorem witness_ResultDependsOnTheSourceOnly :
    commandFootprint (.expand128 0x010#12 0x000#12 .assisted) = some ⟨0, 16, 16, 176⟩
      ∧ Ready State.reset (.expand128 0x010#12 0x000#12 .assisted)
      ∧ Ready { State.reset with res := 14#32, moves := [.reset] } (.expand128 0x010#12 0x000#12 .assisted)
      ∧ (∀ a, InBytes 0 16 a → State.readByte State.reset a
          = State.readByte { State.reset with res := 14#32, moves := [.reset] } a) ∧ InBytes 16 176 191 :=
  ⟨by decide, (witness_Ready_expand128 _).2, ready_of_perform (by decide), fun _ _ => rfl, ⟨by decide, by decide⟩⟩
theorem witness_ReportIndependentOfData :
    ∃ t t', step (withMoves [.issue 0x00000003#32]) = .next t
      ∧ step { withMoves [.issue 0x00000003#32, .reset] with mem := [(7, 0xFF#8)] } = .next t'
      ∧ (withMoves [.issue 0x00000003#32]).cfg
          = { withMoves [.issue 0x00000003#32, .reset] with mem := [(7, 0xFF#8)] }.cfg
      ∧ flagF (withMoves [.issue 0x00000003#32])
          = flagF { withMoves [.issue 0x00000003#32, .reset] with mem := [(7, 0xFF#8)] } :=
  ⟨_, _, rfl, rfl, rfl, rfl⟩
theorem witness_CommandsAreIdempotent :
    Ready State.reset (.todec192 0x2D0#12 0x100#12) ∧ Ready State.reset .rounds128
      ∧ ∃ t, exec (.todec192 0x2D0#12 0x100#12) State.reset = .next t :=
  ⟨witness_Ready_todec.2.1, ready_of_perform (by decide), next_of_ready witness_Ready_todec.2.1⟩

end Sys2Proof.Tests
end

section
/-! PROOFS. The encoding family (`30_encoding.md` R51 to R57): a word that passes the tests of illegal words and names a
size is the packing of its own fields, so the command the decoder answers encodes back to that word, and its row is the
row the word matches. -/

namespace Sys2Proof.Machine

/-! ## Selectors and paths as bits (R53, R54) -/

/-- R53: the selector of a size. -/
def selectorOf : KeySize → BitVec 2
  | .k128 => 0#2
  | .k192 => 1#2
  | .k256 => 2#2

theorem keySizeOf_eq_some_iff (sel : BitVec 2) (k : KeySize) : keySizeOf sel = some k ↔ sel = selectorOf k := by
  revert sel
  cases k <;> decide

theorem keySizeOf_eq_none_iff (sel : BitVec 2) : keySizeOf sel = none ↔ sel.toNat = 3 := by
  revert sel
  decide

theorem pathBit_pathOf (p : Bool) : pathBit (pathOf p) = BitVec.ofBool p := by
  cases p <;> rfl

/-! ## The word of an operation and a size (R51, R52) -/

theorem encode_dispatchExpand (k : KeySize) (dst src : Addr) (p : Path) :
    encode (dispatchExpand k dst src p) = packWord dst src (pathBit p) (selectorOf k) 1#4 := by
  cases k <;> rfl

theorem encode_todecOf (k : KeySize) (dst src : Addr) :
    encode (todecOf k dst src) = packWord dst src 0#1 (selectorOf k) 2#4 := by
  cases k <;> rfl

theorem encode_roundsOf (k : KeySize) : encode (roundsOf k) = packWord 0#12 0#12 0#1 (selectorOf k) 3#4 := by
  cases k <;> rfl

theorem encode_keybytesOf (k : KeySize) : encode (keybytesOf k) = packWord 0#12 0#12 0#1 (selectorOf k) 4#4 := by
  cases k <;> rfl

/-- The command of a row of the table has the word of that row (the table's family of facts, for every command). -/
theorem rowMatch (i : Instr) : Laws.RowMatch.Statement i := by
  cases i with
  | expand128 dst src p => exact Laws.RowMatch.expand128 dst src p
  | expand192 dst src p => exact Laws.RowMatch.expand192 dst src p
  | expand256 dst src p => exact Laws.RowMatch.expand256 dst src p
  | todec128 dst src => exact Laws.RowMatch.todec128 dst src
  | todec192 dst src => exact Laws.RowMatch.todec192 dst src
  | todec256 dst src => exact Laws.RowMatch.todec256 dst src
  | rounds128 => exact Laws.RowMatch.rounds128
  | rounds192 => exact Laws.RowMatch.rounds192
  | rounds256 => exact Laws.RowMatch.rounds256
  | keybytes128 => exact Laws.RowMatch.keybytes128
  | keybytes192 => exact Laws.RowMatch.keybytes192
  | keybytes256 => exact Laws.RowMatch.keybytes256

/-! ## Legal words -/

/-- R51: the fields and the bit `z7` are all 32 bits of the word. -/
theorem packWord_fields {w : Word} (hz : fieldZ7 w = false) :
    packWord (fieldDst w) (fieldSrc w) (BitVec.ofBool (fieldP w)) (fieldSel w) (fieldOp w) = w := by
  apply BitVec.eq_of_getLsbD_eq
  intro n hn
  interval_cases n <;> simp_all [packWord, fieldDst, fieldSrc, fieldP, fieldSel, fieldOp, fieldZ7]

/-- What the tests of R56 leave: `z7` is 0, and each operation has the fields it does not use at 0. -/
theorem fields_of_legal {w : Word} (h : illegalWord w = false) :
    fieldZ7 w = false
      ∧ (fieldOp w = 1#4
        ∨ (fieldOp w = 2#4 ∧ fieldP w = false)
        ∨ ((fieldOp w = 3#4 ∨ fieldOp w = 4#4) ∧ fieldP w = false ∧ fieldSrc w = 0#12 ∧ fieldDst w = 0#12)) := by
  have op_cases : ∀ op : BitVec 4, op ≠ 0#4 → op.toNat < 5 → op = 1#4 ∨ op = 2#4 ∨ op = 3#4 ∨ op = 4#4 := by decide
  simp only [illegalWord, Bool.or_eq_false_iff, beq_eq_false_iff_ne, decide_eq_false_iff_not, not_le] at h
  obtain ⟨⟨⟨⟨hop0, hop5⟩, hz⟩, hp⟩, haddr⟩ := h
  refine ⟨hz, ?_⟩
  rcases op_cases _ hop0 hop5 with ho | ho | ho | ho <;> simp_all

/-! ## The decoder, an equation per test (R57) -/

theorem decode_of_illegal {w : Word} (h : illegalWord w = true) : decode w = .error .illegalCmd := by
  simp [decode, h]

theorem decode_of_badSelector {w : Word} (h : illegalWord w = false) (hk : keySizeOf (fieldSel w) = none) :
    decode w = .error .badSelector := by
  simp [decode, h, hk]

/-- A legal word with a selector is the word of the command the decoder answers. -/
theorem decode_of_legal {w : Word} {k : KeySize} (h : illegalWord w = false) (hk : keySizeOf (fieldSel w) = some k) :
    ∃ i, decode w = .ok i ∧ encode i = w := by
  obtain ⟨hz, hop⟩ := fields_of_legal h
  have hw := packWord_fields hz
  rw [(keySizeOf_eq_some_iff _ k).1 hk] at hw
  rcases hop with ho | ⟨ho, hp⟩ | ⟨ho | ho, hp, hsrc, hdst⟩
  · refine ⟨dispatchExpand k (fieldDst w) (fieldSrc w) (pathOf (fieldP w)), by simp [decode, h, hk, ho], ?_⟩
    rwa [encode_dispatchExpand, pathBit_pathOf, ← ho]
  · refine ⟨todecOf k (fieldDst w) (fieldSrc w), by simp [decode, h, hk, ho], ?_⟩
    rw [encode_todecOf]; rwa [ho, hp] at hw
  · refine ⟨roundsOf k, by simp [decode, h, hk, ho], ?_⟩
    rw [encode_roundsOf]; rwa [ho, hp, hsrc, hdst] at hw
  · refine ⟨keybytesOf k, by simp [decode, h, hk, ho], ?_⟩
    rw [encode_keybytesOf]; rwa [ho, hp, hsrc, hdst] at hw

/-- Settles O5: the three outcomes of the decoder, by the tests on fields that the tests on numbers equal; the command
of the third matches its row because the word is its encoding. -/
theorem decoderAppliesTheTestsInOrder : Obligations.DecoderAppliesTheTestsInOrder := by
  intro w
  rw [wordIllegal_iff, numSel_eq, ne_eq, ← keySizeOf_eq_none_iff, Bool.not_eq_true]
  refine ⟨decode_of_illegal, decode_of_badSelector, fun h hsel => ?_⟩
  obtain ⟨k, hk⟩ := Option.ne_none_iff_exists'.1 hsel
  obtain ⟨i, hdec, henc⟩ := decode_of_legal h hk
  obtain ⟨_, hmatch⟩ := rowMatch i
  exact ⟨i, hdec, henc ▸ hmatch⟩

end Sys2Proof.Machine
end

section
/-! PROOFS. The field GF(2^8) (`40_round_primitives.md` R71). `gmul` is additive in both arguments and commutes with
`xtime` in the left one; since sums of `xtime^i(1)` are all the bytes (`byte_induction`), its laws follow from the case
of the byte 1. -/

namespace Sys2Proof.Machine

/-! ## Additivity (R71) -/

theorem xtime_xor (a b : Byte) : xtime (a ^^^ b) = xtime a ^^^ xtime b := by
  have reduction : ∀ p q : Bool, (if p ^^ q then 0x1B#8 else 0x00#8)
      = (if p then 0x1B#8 else 0x00#8) ^^^ (if q then 0x1B#8 else 0x00#8) := by decide
  simp only [xtime, BitVec.getLsbD_xor, reduction, BitVec.shiftLeft_xor_distrib]
  ac_rfl

theorem xtimes_xor (i : Nat) (a b : Byte) : xtimes i (a ^^^ b) = xtimes i a ^^^ xtimes i b := by
  induction i generalizing a b with
  | zero => rfl
  | succ i ih => simp only [xtimes, xtime_xor, ih]

theorem xtimes_xtime (i : Nat) (a : Byte) : xtimes i (xtime a) = xtime (xtimes i a) := by
  induction i generalizing a with
  | zero => rfl
  | succ i ih => simp only [xtimes, ih]

theorem gmulTerm_xor_left (a b c : Byte) (i : Nat) : gmulTerm (a ^^^ b) c i = gmulTerm a c i ^^^ gmulTerm b c i := by
  unfold gmulTerm
  split
  · exact xtimes_xor i a b
  · rfl

theorem gmulTerm_xor_right (a b c : Byte) (i : Nat) : gmulTerm a (b ^^^ c) i = gmulTerm a b i ^^^ gmulTerm a c i := by
  unfold gmulTerm
  cases hb : b.getLsbD i <;> cases hc : c.getLsbD i <;> simp [hb, hc]

theorem gmulTerm_xtime_left (a b : Byte) (i : Nat) : gmulTerm (xtime a) b i = xtime (gmulTerm a b i) := by
  unfold gmulTerm
  split
  · exact xtimes_xtime i a
  · rfl

theorem gmul_xor_left (a b c : Byte) : gmul (a ^^^ b) c = gmul a c ^^^ gmul b c := by
  simp only [gmul, gmulTerm_xor_left]
  ac_rfl

theorem gmul_xor_right (a b c : Byte) : gmul a (b ^^^ c) = gmul a b ^^^ gmul a c := by
  simp only [gmul, gmulTerm_xor_right]
  ac_rfl

theorem gmul_xtime_left (a b : Byte) : gmul (xtime a) b = xtime (gmul a b) := by
  simp only [gmul, gmulTerm_xtime_left, xtime_xor]

/-! ## The byte 1 generates all bytes -/

@[simp] theorem one_gmul (a : Byte) : gmul 1#8 a = a := by
  revert a
  decide

theorem gmul_one (a : Byte) : gmul a 1#8 = a := by
  simp [gmul, gmulTerm, xtimes]

/-- A property of 1 that `xtime` and `^` keep holds of every byte: a byte is the sum of the `xtime^i(1)` of its bits. -/
theorem byte_induction {P : Byte → Prop} (one : P 1#8) (xtime : ∀ a, P a → P (xtime a))
    (xor : ∀ a b, P a → P b → P (a ^^^ b)) (a : Byte) : P a := by
  have power : ∀ i b, P b → P (xtimes i b) := by
    intro i
    induction i with
    | zero => exact fun _ h => h
    | succ i ih => exact fun b h => ih _ (xtime b h)
  have term : ∀ i, P (gmulTerm 1#8 a i) := by
    intro i
    unfold gmulTerm
    split
    · exact power i 1#8 one
    · exact xor 1#8 1#8 one one
  have sum : P (gmul 1#8 a) := by
    unfold gmul
    iterate 7 refine xor _ _ ?_ (term _)
    exact term 0
  rwa [one_gmul] at sum

/-! ## The laws (R71) -/

theorem gmul_xtime_right (a b : Byte) : gmul a (xtime b) = xtime (gmul a b) := by
  induction a using byte_induction with
  | one => simp only [one_gmul]
  | xtime a ih => simp only [gmul_xtime_left, ih]
  | xor a c iha ihc => simp only [gmul_xor_left, xtime_xor, iha, ihc]

theorem gmul_comm (a b : Byte) : gmul a b = gmul b a := by
  induction a using byte_induction with
  | one => rw [one_gmul, gmul_one]
  | xtime a ih => rw [gmul_xtime_left, gmul_xtime_right, ih]
  | xor a c iha ihc => rw [gmul_xor_left, gmul_xor_right, iha, ihc]

theorem gmul_assoc (a b c : Byte) : gmul (gmul a b) c = gmul a (gmul b c) := by
  induction a using byte_induction with
  | one => simp only [one_gmul]
  | xtime a ih => simp only [gmul_xtime_left, ih]
  | xor a d iha ihd => simp only [gmul_xor_left, iha, ihd]

theorem zero_gmul (a : Byte) : gmul 0#8 a = 0#8 := by
  simpa using gmul_xor_left 0#8 0#8 a

/-- A byte has at most one inverse. -/
theorem gmul_inverse_unique {a b c : Byte} (hb : gmul a b = 1#8) (hc : gmul a c = 1#8) : b = c :=
  calc b = gmul 1#8 b := (one_gmul b).symm
    _ = gmul (gmul c a) b := by rw [gmul_comm c a, hc]
    _ = gmul c (gmul a b) := gmul_assoc c a b
    _ = c := by rw [hb, gmul_one]

end Sys2Proof.Machine
end

section
/-! PROOFS. The substitution tables (`40_round_primitives.md` R72, R73). The inverse of a byte is read back from its
entry of `SBOX` through the inverse of R72's affine map; that this byte is an inverse is checked for each entry, and that
there is no other is a law of the field. -/

namespace Sys2Proof.Machine

theorem invSbox_sbox (a : Byte) : invSbox (sbox a) = a := by
  revert a
  decide

theorem sbox_invSbox (a : Byte) : sbox (invSbox a) = a := by
  revert a
  decide

/-- Settles O34, by the two tables entry by entry. -/
theorem invSboxInverts : Obligations.InvSboxInverts :=
  ⟨invSbox_sbox, sbox_invSbox⟩

/-- R72's formula, as a map of the inverse. -/
def sboxAffine (b : Byte) : Byte :=
  b ^^^ b.rotateLeft 1 ^^^ b.rotateLeft 2 ^^^ b.rotateLeft 3 ^^^ b.rotateLeft 4 ^^^ 0x63#8

/-- The map that undoes `sboxAffine`. -/
def sboxAffineInv (s : Byte) : Byte := s.rotateLeft 1 ^^^ s.rotateLeft 3 ^^^ s.rotateLeft 6 ^^^ 0x05#8

theorem sboxAffine_sboxAffineInv (s : Byte) : sboxAffine (sboxAffineInv s) = s := by
  revert s
  decide

/-- Each entry of the table but the first, taken back through the affine map, is an inverse of its index. -/
theorem gmul_sboxAffineInv_sbox {a : Byte} (h : a ≠ 0#8) : gmul a (sboxAffineInv (sbox a)) = 1#8 := by
  revert a
  decide

theorem sbox_eq_sboxAffine_of_gmul {a b : Byte} (h : gmul a b = 1#8) : sbox a = sboxAffine b := by
  have ha : a ≠ 0#8 := by
    rintro rfl
    simp [zero_gmul] at h
  rw [gmul_inverse_unique h (gmul_sboxAffineInv_sbox ha), sboxAffine_sboxAffineInv]

theorem sbox_injective : Function.Injective sbox := Function.LeftInverse.injective invSbox_sbox

/-- Settles O33: the inverse of the index is unique, so it is the byte the entry comes from by the affine map; the table
is injective because `INV_SBOX` undoes it. -/
theorem sboxIsTheFormula : Obligations.SboxIsTheFormula :=
  ⟨fun _ _ => sbox_eq_sboxAffine_of_gmul, by decide, fun _ h => ⟨_, gmul_sboxAffineInv_sbox h⟩,
    fun _ _ h => sbox_injective h⟩

end Sys2Proof.Machine
end

section
/-! PROOFS. Permutations of the bytes of a V128 and the rows of the AES state (`40_round_primitives.md` R75, R92): a
fact about `PERM` is a fact about its index list. -/

namespace Sys2Proof.Machine

/-! ## PERM byte by byte (R92) -/

theorem byte_ofFn (f : Fin 16 → Byte) (i : Fin 16) : V128.byte (V128.ofFn f) i = f i := by
  fin_cases i <;> rfl

theorem ofFn_byte (v : V128) : V128.ofFn (V128.byte v) = v := rfl

theorem byte_perm (v : V128) (m : List (Fin 16)) (i : Fin 16) :
    V128.byte (perm v m) i = V128.byte v (m.getD i.val 0) := byte_ofFn _ i

theorem perm_perm_of_inverse {m m' : List (Fin 16)} (h : ∀ i : Fin 16, m.getD (m'.getD i.val 0).val 0 = i)
    (v : V128) : perm (perm v m) m' = v :=
  calc perm (perm v m) m' = V128.ofFn (V128.byte v) := congrArg V128.ofFn (funext fun i => by rw [byte_perm, h])
    _ = v := ofFn_byte v

/-! ## Rows and columns (R7) -/

/-- The index of the byte in row `r` of column `c`. -/
def cellIndex (c r : Fin 4) : Fin 16 := ⟨4 * c.val + r.val, by omega⟩

theorem byte_word (v : V128) (c r : Fin 4) : KeyWord.byte (V128.word v c) r = V128.byte v (cellIndex c r) := by
  have hc : (4 * c.val + r.val) / 4 = c.val := by omega
  have hr : (4 * c.val + r.val) % 4 = r.val := by omega
  simp only [V128.byte, cellIndex, hc, hr, Fin.eta]

/-- A permutation whose list sends row `r`, column `c` to row `r`, column `f c r` moves the bytes within their rows. -/
theorem byte_word_perm {m : List (Fin 16)} {f : Fin 4 → Fin 4 → Fin 4}
    (h : ∀ r c, m.getD (cellIndex c r).val 0 = cellIndex (f c r) r) (v : V128) (r c : Fin 4) :
    KeyWord.byte (V128.word (perm v m) c) r = KeyWord.byte (V128.word v (f c r)) r := by
  rw [byte_word, byte_perm, h, byte_word]

/-! ## ShiftRows and InvShiftRows (R75) -/

theorem shiftRows_rotates (v : V128) (r c : Fin 4) :
    KeyWord.byte (V128.word (shiftRows v) c) r = KeyWord.byte (V128.word v (c + r)) r :=
  byte_word_perm (f := fun c r => c + r) (by decide) v r c

theorem invShiftRows_rotates (v : V128) (r c : Fin 4) :
    KeyWord.byte (V128.word (invShiftRows v) c) r = KeyWord.byte (V128.word v (c - r)) r :=
  byte_word_perm (f := fun c r => c - r) (by decide) v r c

theorem invShiftRows_shiftRows (v : V128) : invShiftRows (shiftRows v) = v := perm_perm_of_inverse (by decide) v

theorem shiftRows_invShiftRows (v : V128) : shiftRows (invShiftRows v) = v := perm_perm_of_inverse (by decide) v

theorem shiftRows_ofWords_const (x : KeyWord) : shiftRows (V128.ofWords fun _ => x) = V128.ofWords fun _ => x := rfl

/-- Settles O37: rotation and mutual inverse by the index lists; four equal columns are one word four times. -/
theorem shiftRowsRotatesRows : Obligations.ShiftRowsRotatesRows := by
  intro v
  refine ⟨fun r c => ⟨shiftRows_rotates v r c, invShiftRows_rotates v r c⟩, invShiftRows_shiftRows v,
    shiftRows_invShiftRows v, fun h01 h12 h23 => ?_⟩
  obtain ⟨w0, w1, w2, w3⟩ := v
  dsimp only at h01 h12 h23
  subst h01 h12 h23
  exact shiftRows_ofWords_const w0

end Sys2Proof.Machine
end

section
/-! PROOFS. The number of a command word (`30_encoding.md` R51, R54). -/

namespace Sys2Proof.Machine

/-- A word is the number of its fields; the bit `z7`, which no command sets, stands above `p`. -/
theorem toNat_eq_numWord (w : Word) :
    w.toNat = numWord (numDst w) (numSrc w) (numP w) (128 * numZ7 w + 16 * numSel w + numOp w) := by
  unfold numWord numDst numSrc numP numZ7 numSel numOp
  omega

theorem packWord_toNat (dst src : Addr) (p : BitVec 1) (sel : BitVec 2) (op : BitVec 4) :
    (packWord dst src p sel op).toNat = numWord dst.toNat src.toNat p.toNat (16 * sel.toNat + op.toNat) := by
  have bit_toNat : ∀ b : BitVec 1, (b.getLsbD 0).toNat = b.toNat := by decide
  rw [toNat_eq_numWord, numDst_eq, numSrc_eq, numP_eq, numZ7_eq, numSel_eq, numOp_eq, fieldDst_packWord,
    fieldSrc_packWord, fieldP_packWord, fieldZ7_packWord, fieldSel_packWord, fieldOp_packWord, bit_toNat]
  simp

@[simp] theorem pathBit_toNat (p : Path) : (pathBit p).toNat = pathNumber p := by
  cases p <;> rfl

end Sys2Proof.Machine
end

section
/-! PROOFS. Where a command's prologue faults (`44_dispatch_accessors.md` R150, `60_exceptions.md` R178): the prologue's
three tests are the three conditions of the contract, so the first condition that fails names the cause. -/

namespace Sys2Proof.Machine

/-! ## The tests of the prologue are the conditions of the contract -/

theorem pathTest_eq_false_iff (c : Config) (i : Instr) :
    (commandPath i).any (fun p => !pathPresent c p) = false ↔ PathOk c i := by
  unfold PathOk
  cases commandPath i <;> simp

theorem rangeTest_eq_false_iff (c : Config) (i : Instr) :
    (commandFootprint i).any (fun f => !inRange c f) = false ↔ FitsOk c i := by
  unfold FitsOk
  cases commandFootprint i <;> simp [inRange, Footprint.Fits]

theorem overlapTest_eq_false_iff (i : Instr) : (commandFootprint i).any overlaps = false ↔ DisjointOk i := by
  unfold DisjointOk
  cases h : commandFootprint i with
  | none => simp
  | some f =>
    obtain ⟨hs, hd⟩ := footprint_lengths_pos h
    simp [overlaps_eq_false_iff f hs hd]

/-- The prologue's verdict on a command by the conditions of its contract, in the order of R178. -/
theorem prologue_eq (s : State) (i : Instr) [Decidable (PathOk s.cfg i)] [Decidable (FitsOk s.cfg i)]
    [Decidable (DisjointOk i)] :
    prologue s (commandPath i) (commandFootprint i)
      = if flagF s then .refuse
        else if ¬ PathOk s.cfg i then .fault .pathUnavailable
        else if ¬ FitsOk s.cfg i then .fault .range
        else if ¬ DisjointOk i then .fault .overlap
        else .perform := by
  simp only [prologue, ← pathTest_eq_false_iff, ← rangeTest_eq_false_iff, ← overlapTest_eq_false_iff,
    Bool.not_eq_false]

/-- A command whose prologue answers a cause takes that fault on its own word (R179). -/
theorem exec_of_fault {s : State} {i : Instr} {c : Cause}
    (h : prologue s (commandPath i) (commandFootprint i) = .fault c) :
    exec i s = .next (raiseFault c (encode i) s) := by
  simp [exec_eq_command, command, h]

/-- Every command on a machine that has not faulted takes the fault of its first failing condition. -/
theorem prologueFaults (s : State) (i : Instr) : PrologueFaults s i := by
  classical
  intro hflag
  refine ⟨fun hpath => ?_, fun hpath hfits => ?_, fun hpath hfits hdisj => ?_⟩
  · exact exec_of_fault (c := .pathUnavailable) (by simp [prologue_eq, hflag, hpath])
  · exact exec_of_fault (c := .range) (by simp [prologue_eq, hflag, hpath, hfits])
  · exact exec_of_fault (c := .overlap) (by simp [prologue_eq, hflag, hpath, hfits, hdisj])

end Sys2Proof.Machine
end

section
/-! PROOFS. EXPAND.128 (`41_expand128.md` R110): the eleven round keys by their recurrence. -/

namespace Sys2Proof.Machine

theorem roundKey_expand128_zero (p : Path) (key : V128) : roundKey (expand128 p key) 0 = key := rfl

theorem roundKey_expand128_succ (p : Path) (key : V128) {i : Nat} (h : i < 10) :
    roundKey (expand128 p key) (i + 1)
      = V128.xor (ripple (roundKey (expand128 p key) i)) (subrot (roundKey (expand128 p key) i) (rcon (i + 1)) p) :=
  roundKey_expand128From p key (rconPrefix 10) i h

/-- Settles O17: the word by its fields, the faults by the prologue of every command, the effect by the schedule that
reads back from the destination. -/
theorem expand128RunsThePseudocode : Obligations.Expand128RunsThePseudocode := by
  intro s dst src p
  refine ⟨?_, prologueFaults s _, fun hready => ?_⟩
  · simp [encode, packWord_toNat]
  · obtain ⟨t, hexec, hperf, hframe, hload⟩ := exec_schedule_of_ready rfl hready
    refine ⟨t, hexec, hperf, hframe, (hload 0 (by simp)).trans (roundKey_expand128_zero p _), fun i h1 h10 => ?_⟩
    obtain ⟨i, rfl⟩ := Nat.exists_eq_add_of_le' h1
    rw [Nat.add_sub_cancel, hload (i + 1) (by dsimp only; omega), hload i (by dsimp only; omega)]
    exact roundKey_expand128_succ p _ (by omega)

end Sys2Proof.Machine
end

section
/-! PROOFS. EXPAND.192 (`42_expand192.md`): the thirteen slots of the assisted path (R122, R123) and the 26 halves of
the emulated path (R125). Each path's list is read by index: first its recurrence for any list of constants, then the round
keys made from it. -/

namespace Sys2Proof.Machine

/-- The constants an expander takes are `RCON[1]`, `RCON[2]`, ... (R87). -/
theorem rconPrefix_getD {k n : Nat} (h : n < k) : (rconPrefix k).getD n 0#8 = rcon (n + 1) := by
  simp [rconPrefix, rcon, h]

/-! ## The assisted path (R122, R123) -/

theorem a192Pairs_getD_succ (ab d : V128 × V128) (rcs : List Byte) {n : Nat} (h : n < rcs.length) :
    (a192Pairs ab rcs).getD (n + 1) d
      = a192 ((a192Pairs ab rcs).getD n d).1 ((a192Pairs ab rcs).getD n d).2 (rcs.getD n 0#8) := by
  induction rcs generalizing ab n with
  | nil => simp at h
  | cons rc rcs ih =>
    cases n with
    | zero => cases rcs <;> rfl
    | succ n => exact ih _ (by simpa using h)

theorem pair192_succ (a0 b0 : V128) {n : Nat} (h : n < 8) :
    pair192 a0 b0 (n + 1) = a192 (pair192 a0 b0 n).1 (pair192 a0 b0 n).2 (rcon (n + 1)) := by
  rw [← rconPrefix_getD h]
  exact a192Pairs_getD_succ (a0, b0) _ (rconPrefix 8) h

/-- Pairs `2*m` to `2*m + 2` make slots `3*m` to `3*m + 3` (R123). -/
theorem roundKey_slots192 (ps : List (V128 × V128)) (d : V128 × V128) (m : Nat) (h : 2 * m + 2 < ps.length) :
    roundKey (slots192 ps) (3 * m + 1) = packLL (ps.getD (2 * m) d).2 (ps.getD (2 * m + 1) d).1
      ∧ roundKey (slots192 ps) (3 * m + 2) = packHL (ps.getD (2 * m + 1) d).1 (ps.getD (2 * m + 1) d).2
      ∧ roundKey (slots192 ps) (3 * m + 3) = (ps.getD (2 * m + 2) d).1 := by
  induction m generalizing ps with
  | zero =>
    match ps, h with
    | _ :: _ :: [_], _ => exact ⟨rfl, rfl, rfl⟩
    | _ :: _ :: _ :: _ :: _, _ => exact ⟨rfl, rfl, rfl⟩
  | succ m ih =>
    match ps, h with
    | _ :: _ :: rest, h => exact ih rest (by simp only [List.length_cons] at h; omega)

theorem roundKey_expand192_assisted (a0 b0 : V128) {m : Nat} (h : m < 4) :
    roundKey (expand192 .assisted a0 b0) (3 * m + 1) = packLL (pair192 a0 b0 (2 * m)).2 (pair192 a0 b0 (2 * m + 1)).1
      ∧ roundKey (expand192 .assisted a0 b0) (3 * m + 2)
          = packHL (pair192 a0 b0 (2 * m + 1)).1 (pair192 a0 b0 (2 * m + 1)).2
      ∧ roundKey (expand192 .assisted a0 b0) (3 * m + 3) = (pair192 a0 b0 (2 * m + 2)).1 :=
  roundKey_slots192 _ (V128.zero, V128.zero) m (show 2 * m + 2 < 9 by omega)

/-- Settles O20: the pairs are those of the model, one assist step apart; the slots are the schedule that reads back
from the destination. -/
theorem expand192AssistedFillsTheSlots : Obligations.Expand192AssistedFillsTheSlots := by
  intro s dst src hready
  obtain ⟨t, hexec, hperf, hframe, hload⟩ := exec_schedule_of_ready rfl hready
  dsimp only at hload
  refine ⟨t, fun n => (pair192 (load128 s src.toNat) (load64z s (src.toNat + 16)) n).1,
    fun n => (pair192 (load128 s src.toNat) (load64z s (src.toNat + 16)) n).2, hexec, hperf, hframe, rfl, rfl,
    fun n hn => ?_, hload 0 (by omega), fun m hm => ?_⟩
  · simp only [pair192_succ _ _ hn]
    exact ⟨rfl, rfl⟩
  · rw [hload (3 * m + 1) (by omega), hload (3 * m + 2) (by omega), hload (3 * m + 3) (by omega)]
    exact roundKey_expand192_assisted _ _ hm

/-! ## The emulated path (R125) -/

/-- Half `q` of a list of halves. Every use is inside the list's length. -/
def halfOf (hs : List Half) (q : Nat) : Half := hs.getD q ⟨KeyWord.zero, KeyWord.zero⟩

/-- One step of R125 on the halves `h`, at `b = 3*i + 3`: two halves with the constant `rc`, and a third unless the step
is the `count`-th. -/
def HalvesStep (h : Nat → Half) (rc : Byte) (count i : Nat) : Prop :=
  h (3 * i + 3)
      = Half.xor (hrip (h (3 * i)))
          (V128.lo (V128.xor (fwdLast (perm (V128.ofHalves (h (3 * i + 2)) (h (3 * i + 2))) rotMask) V128.zero)
            (bcastRc rc)))
    ∧ h (3 * i + 4) = hrip (Half.xor (h (3 * i + 1)) (carry (h (3 * i + 3))))
    ∧ (i + 1 < count → h (3 * i + 5) = hrip (Half.xor (h (3 * i + 2)) (carry (h (3 * i + 4)))))

theorem halvesStep_halves192 (h0 h1 h2 : Half) (rcs : List Byte) {i : Nat} (h : i < rcs.length) :
    HalvesStep (halfOf (h0 :: h1 :: h2 :: halves192 h0 h1 h2 rcs)) (rcs.getD i 0#8) rcs.length i := by
  induction rcs generalizing h0 h1 h2 i with
  | nil => simp at h
  | cons rc rcs ih =>
    cases rcs with
    | nil => cases i with
      | zero => exact ⟨rfl, rfl, by simp⟩
      | succ i => simp at h
    | cons rc' rcs => cases i with
      | zero => exact ⟨rfl, rfl, fun _ => rfl⟩
      | succ i =>
        obtain ⟨first, second, third⟩ := ih _ _ _ (i := i) (by simpa using h)
        exact ⟨first, second, fun hi => third (by simpa using hi)⟩

theorem roundKey_pairHalves (hs : List Half) (i : Nat) (h : 2 * i + 1 < hs.length) :
    roundKey (pairHalves hs) i = V128.ofHalves (halfOf hs (2 * i)) (halfOf hs (2 * i + 1)) := by
  induction i generalizing hs with
  | zero =>
    match hs, h with
    | _ :: _ :: _, _ => rfl
  | succ i ih =>
    match hs, h with
    | _ :: _ :: rest, h => exact ih rest (by simp only [List.length_cons] at h; omega)

/-- Half `q` in memory is that of the list whose pairs are the round keys there. -/
theorem halfAt_of_load128_eq_pairHalves {t : State} {base : Nat} {hs : List Half}
    (h : ∀ i, 2 * i + 1 < hs.length → load128 t (base + 16 * i) = roundKey (pairHalves hs) i) {q : Nat}
    (hq : 2 * (q / 2) + 1 < hs.length) : halfAt t (base + 8 * q) = halfOf hs q := by
  obtain ⟨even, odd⟩ := halfAt_eq_load128 t base (q / 2)
  rw [h (q / 2) hq, roundKey_pairHalves hs _ hq] at even odd
  obtain hmod | hmod := Nat.mod_two_eq_zero_or_one q
  · rwa [show 2 * (q / 2) = q by omega] at even
  · rwa [show 2 * (q / 2) + 1 = q by omega] at odd

/-! ## The halves of a key -/

/-- The halves `h[0]`, `h[1]`, ... of R125 for a key read as `A_0`, `B_0`. -/
def keyHalves192 (a0 b0 : V128) : List Half :=
  V128.lo a0 :: V128.hi a0 :: V128.lo b0 :: halves192 (V128.lo a0) (V128.hi a0) (V128.lo b0) (rconPrefix 8)

theorem keyHalves192_length (a0 b0 : V128) : (keyHalves192 a0 b0).length = 26 := rfl

theorem expand192_emulated (a0 b0 : V128) : expand192 .emulated a0 b0 = pairHalves (keyHalves192 a0 b0) := rfl

theorem halvesStep_keyHalves192 (a0 b0 : V128) {i : Nat} (h : i < 8) :
    HalvesStep (halfOf (keyHalves192 a0 b0)) (rcon (i + 1)) 8 i := by
  rw [← rconPrefix_getD h]
  exact halvesStep_halves192 _ _ _ (rconPrefix 8) h

/-- The first three halves are the key's 24 bytes (R121, R125). -/
theorem halfOf_keyHalves192_of_key (s : State) (a : Nat) {q : Nat} (h : q < 3) :
    halfOf (keyHalves192 (load128 s a) (load64z s (a + 16))) q = halfAt s (a + 8 * q) := by
  obtain ⟨half0, half1⟩ := halfAt_eq_load128 s a 0
  interval_cases q
  · exact half0.symm
  · exact half1.symm
  · rfl

/-- Settles O21: the halves are those of the model's list, one step of R125 apart; its pairs are the round keys that
read back from the destination. -/
theorem expand192EmulatedFillsTheHalves : Obligations.Expand192EmulatedFillsTheHalves := by
  intro s dst src hready
  obtain ⟨t, hexec, hperf, hframe, hload⟩ := exec_schedule_of_ready rfl hready
  simp only [scheduleOf, expand192_emulated] at hload
  refine ⟨t, halfOf (keyHalves192 (load128 s src.toNat) (load64z s (src.toNat + 16))), hexec, hperf, hframe,
    fun q hq => ?_, fun q hq => halfOf_keyHalves192_of_key s _ hq, fun n h1 h8 => ?_⟩
  · refine halfAt_of_load128_eq_pairHalves (fun i hi => ?_) ?_
    · rw [keyHalves192_length] at hi
      exact hload i (by omega)
    · rw [keyHalves192_length]
      omega
  · obtain ⟨i, rfl⟩ := Nat.exists_eq_add_of_le' h1
    exact halvesStep_keyHalves192 _ _ (by omega)

end Sys2Proof.Machine
end

section
/-! PROOFS. EXPAND.256 (`43_expand256.md` R135): the fifteen round keys by type A steps (R136) and type B steps (R137),
with no type B step after the last type A step (R138). -/

namespace Sys2Proof.Machine

/-- Type A step `i + 1` makes the even round key `2*i + 2` (R136). -/
theorem roundKey_expand256_even (p : Path) (key0 key1 : V128) {i : Nat} (h : i < 7) :
    roundKey (expand256 p key0 key1) (2 * i + 2)
      = typeA p (roundKey (expand256 p key0 key1) (2 * i)) (roundKey (expand256 p key0 key1) (2 * i + 1))
          (rcon (i + 1)) := by
  rw [← rconPrefix_getD h]
  exact (roundKey_expand256From p key0 key1 (rconPrefix 7) i h).1

/-- Type B step `i + 1` makes the odd round key `2*i + 3`; there are six (R137, R138). -/
theorem roundKey_expand256_odd (p : Path) (key0 key1 : V128) {i : Nat} (h : i < 6) :
    roundKey (expand256 p key0 key1) (2 * i + 3)
      = typeB p (roundKey (expand256 p key0 key1) (2 * i + 1)) (roundKey (expand256 p key0 key1) (2 * i + 2)) :=
  (roundKey_expand256From p key0 key1 (rconPrefix 7) i (show i < 7 by omega)).2 (show i + 1 < 7 by omega)

/-- Settles O23: the word by its fields, the faults by the prologue of every command, the effect by the schedule that
reads back from the destination, whose even and odd round keys are the steps of R136 and R137. -/
theorem expand256RunsThePseudocode : Obligations.Expand256RunsThePseudocode := by
  intro s dst src p
  refine ⟨?_, prologueFaults s _, fun hready => ?_⟩
  · simp [encode, packWord_toNat]
  · obtain ⟨t, hexec, hperf, hframe, hload⟩ := exec_schedule_of_ready rfl hready
    dsimp only at hload
    refine ⟨t, hexec, hperf, hframe, hload 0 (by omega), hload 1 (by omega), fun n h1 h7 => ?_⟩
    obtain ⟨i, rfl⟩ := Nat.exists_eq_add_of_le' h1
    rw [show 2 * (i + 1) - 2 = 2 * i by omega, show 2 * (i + 1) - 1 = 2 * i + 1 by omega, Nat.mul_succ,
      hload (2 * i) (by omega), hload (2 * i + 1) (by omega), hload (2 * i + 2) (by omega)]
    refine ⟨roundKey_expand256_even p _ _ (by omega), fun hlast => ?_⟩
    rw [hload (2 * i + 3) (by omega)]
    exact roundKey_expand256_odd p _ _ (by omega)

end Sys2Proof.Machine
end

section
/-! PROOFS. ROUNDS and KEYBYTES (`44_dispatch_accessors.md` R152, R153): with no path and no footprint a command on a
machine that has not faulted is performed, so the only faults of these words are the decoder's two. -/

namespace Sys2Proof.Machine

/-! ## The faults of the decoder, as steps (R150, R179) -/

theorem issueWord_of_decode_error {s : State} {w : Word} {c : Cause} (hflag : flagF s = false)
    (hdec : decode w = .error c) : issueWord w s = .next (raiseFault c w s) := by
  simp [issueWord, hflag, hdec]

/-- The step on a word the decoder rejects takes the fault of the decoder's cause. -/
theorem stepFaultsWith_of_decode_error {s : State} {w : Word} {rest : List HostMove} {c : Cause}
    (hmoves : s.moves = .issue w :: rest) (hflag : flagF s = false) (hdec : decode w = .error c) :
    StepFaultsWith s w rest c (statusOf c) :=
  (step_of_issue hmoves).trans (issueWord_of_decode_error ((flagF_moves s rest).trans hflag) hdec)

/-- For `op` 3 and 4 the condition of R172 is a non-zero bit outside `op` and `sel`. -/
theorem wordIllegal_iff_of_accessor {w : Word} (hop : numOp w = 3 ∨ numOp w = 4) :
    WordIllegal w ↔ numP w = 1 ∨ numZ7 w = 1 ∨ numSrc w ≠ 0 ∨ numDst w ≠ 0 := by
  unfold WordIllegal
  omega

theorem accessorFaults {op : Nat} (hop : op = 3 ∨ op = 4) (s : State) : AccessorFaults op s := by
  rintro w rest hmoves hflag rfl
  have hillegal := (wordIllegal_iff_of_accessor hop).symm.trans (wordIllegal_iff w)
  refine ⟨fun hbits => ?_, fun hp hz hsrc hdst hsel => ?_⟩
  · exact stepFaultsWith_of_decode_error hmoves hflag (decode_of_illegal (hillegal.1 hbits))
  · have hlegal : illegalWord w = false := by
      rw [← Bool.not_eq_true, ← hillegal]
      omega
    rw [numSel_eq, ← keySizeOf_eq_none_iff] at hsel
    exact stepFaultsWith_of_decode_error hmoves hflag (decode_of_badSelector hlegal hsel)

/-! ## The effect (R152, R153) -/

/-- A command without path and footprint is ready on every machine that has not faulted. -/
theorem ready_of_no_operands {s : State} {i : Instr} (hflag : flagF s = false) (hpath : commandPath i = none)
    (hfoot : commandFootprint i = none) : Ready s i := by
  simp [Ready, PathOk, FitsOk, DisjointOk, hflag, hpath, hfoot]

theorem exec_roundsOf {s : State} (hflag : flagF s = false) (k : KeySize) :
    exec (roundsOf k) s
      = .next { s with res := BitVec.ofNat 32 (rounds k), cmdIdx := s.cmdIdx + 1, report := .performed } := by
  cases k <;> exact exec_of_ready (ready_of_no_operands hflag rfl rfl)

theorem exec_keybytesOf {s : State} (hflag : flagF s = false) (k : KeySize) :
    exec (keybytesOf k) s
      = .next { s with res := BitVec.ofNat 32 (keyBytes k), cmdIdx := s.cmdIdx + 1, report := .performed } := by
  cases k <;> exact exec_of_ready (ready_of_no_operands hflag rfl rfl)

/-- Settles O30: the words by evaluation, the effect by the equation of every size, the faults by the decoder's. -/
theorem roundsWritesRes : Obligations.RoundsWritesRes := by
  refine ⟨by decide, fun s => ⟨fun hflag => ?_, accessorFaults (.inl rfl) s⟩⟩
  exact ⟨exec_roundsOf hflag .k128, exec_roundsOf hflag .k192, exec_roundsOf hflag .k256⟩

/-- Settles O31: the words by evaluation, the effect by the equation of every size, the faults by the decoder's. -/
theorem keybytesWritesRes : Obligations.KeybytesWritesRes := by
  refine ⟨by decide, fun s => ⟨fun hflag => ?_, accessorFaults (.inr rfl) s⟩⟩
  exact ⟨exec_keybytesOf hflag .k128, exec_keybytesOf hflag .k192, exec_keybytesOf hflag .k256⟩

end Sys2Proof.Machine
end

section
/-! PROOFS. The schedule converter (`45_schedule_converter.md` R161): the converted schedule place by place, and TODEC
(R160), which stores it. -/

namespace Sys2Proof.Machine

/-! ## Assigning one round key -/

theorem roundKey_set_same {l : List V128} {i : Nat} (h : i < l.length) (v : V128) : roundKey (l.set i v) i = v := by
  simp [roundKey, h]

theorem roundKey_set_ne {i j : Nat} (h : i ≠ j) (l : List V128) (v : V128) :
    roundKey (l.set i v) j = roundKey l j := by
  simp [roundKey, h]

/-! ## The converter, place by place (R161) -/

/-- The loop assigns the indices `i` to `i + count - 1` and their mirror images, each from its own mirror image, and
leaves the other places alone. -/
theorem roundKey_convertLoop (enc : List V128) {n i count : Nat} {dec : List V128} (hcount : i + count ≤ n)
    (hlen : dec.length = n + 1) {j : Nat} (hj : j ≤ n) :
    roundKey (convertLoop enc n i count dec) j
      = if (i ≤ j ∧ j < i + count) ∨ (i ≤ n - j ∧ n - j < i + count) then imc (roundKey enc (n - j))
        else roundKey dec j := by
  induction count generalizing i dec with
  | zero => rw [convertLoop, if_neg (by omega)]
  | succ count ih =>
    rw [convertLoop, ih (by omega) (by simpa using hlen)]
    by_cases hi : i = j
    · subst hi
      rw [roundKey_set_same (by rw [List.length_set]; omega), ite_self, if_pos (by omega)]
    · rw [roundKey_set_ne hi]
      by_cases hmirror : n - i = j
      · subst hmirror
        rw [roundKey_set_same (by omega), show n - (n - i) = i by omega, ite_self, if_pos (by omega)]
      · rw [roundKey_set_ne hmirror]
        exact if_congr (by omega) rfl rfl

section
variable (enc : List V128) {n : Nat} (heven : n % 2 = 0) (hpos : 0 < n)
include heven hpos

theorem roundKey_convert_zero : roundKey (convert enc n) 0 = roundKey enc n := by
  unfold convert
  rw [roundKey_set_ne (by omega), roundKey_convertLoop enc (by omega) (by simp) (by omega), if_neg (by omega),
    roundKey_set_same (by simp)]

theorem roundKey_convert_last : roundKey (convert enc n) n = roundKey enc 0 := by
  unfold convert
  rw [roundKey_set_ne (by omega), roundKey_convertLoop enc (by omega) (by simp) le_rfl, if_neg (by omega),
    roundKey_set_ne (by omega), roundKey_set_same (by simp)]

/-- The loop reaches every interior index but the middle one, which the last assignment does. -/
theorem roundKey_convert_interior {i : Nat} (h0 : 0 < i) (hn : i < n) :
    roundKey (convert enc n) i = imc (roundKey enc (n - i)) := by
  unfold convert
  by_cases hmid : n / 2 = i
  · subst hmid
    rw [roundKey_set_same (by simp only [convertLoop_length, List.length_set, List.length_replicate]; omega),
      show n - n / 2 = n / 2 by omega]
  · rw [roundKey_set_ne hmid, roundKey_convertLoop enc (by omega) (by simp) (by omega), if_pos (by omega)]

end

/-! ## TODEC (R160) -/

theorem rounds_even (k : KeySize) : rounds k % 2 = 0 := by
  cases k <;> rfl

theorem rounds_pos (k : KeySize) : 0 < rounds k := by
  cases k <;> decide

theorem commandFootprint_todecOf (k : KeySize) (dst src : Addr) :
    commandFootprint (todecOf k dst src) = some (todecFootprint k dst src) := by
  cases k <;> rfl

theorem scheduleOf_todecOf (k : KeySize) (dst src : Addr) (s : State) :
    scheduleOf (todecOf k dst src) s = convert (loadSchedule s src.toNat (schedLen k)) (rounds k) := by
  cases k <;> rfl

theorem encode_todecOf_toNat (k : KeySize) (dst src : Addr) :
    (encode (todecOf k dst src)).toNat = numWord dst.toNat src.toNat 0 (16 * sizeNumber k + 2) := by
  rw [encode_todecOf, packWord_toNat]
  cases k <;> rfl

theorem convertedSchedule_of_load128 {s t : State} {k : KeySize} {dst src : Nat}
    (h : ∀ i, i ≤ rounds k →
      load128 t (dst + 16 * i) = roundKey (convert (loadSchedule s src (schedLen k)) (rounds k)) i) :
    ConvertedSchedule (rounds k) dst src s t := by
  have hload : ∀ i, i ≤ rounds k → roundKey (loadSchedule s src (schedLen k)) i = load128 s (src + 16 * i) :=
    fun i hi => roundKey_loadSchedule s src _ i (Nat.lt_succ_of_le hi)
  refine ⟨?_, ?_, fun i h0 hn => ?_⟩
  · exact (h 0 (Nat.zero_le _)).trans
      ((roundKey_convert_zero _ (rounds_even k) (rounds_pos k)).trans (hload _ le_rfl))
  · exact (h _ le_rfl).trans ((roundKey_convert_last _ (rounds_even k) (rounds_pos k)).trans (hload 0 (Nat.zero_le _)))
  · rw [h i hn.le, roundKey_convert_interior _ (rounds_even k) (rounds_pos k) h0 hn, hload _ (Nat.sub_le _ _)]

theorem exec_todecOf_of_ready {s : State} {k : KeySize} {dst src : Addr} (h : Ready s (todecOf k dst src)) :
    ∃ t, exec (todecOf k dst src) s = .next t ∧ Performed s t ∧ WroteOnly dst.toNat (schedBytes k) s t
      ∧ ConvertedSchedule (rounds k) dst.toNat src.toNat s t := by
  obtain ⟨t, hexec, hperf, hframe, hload⟩ := exec_schedule_of_ready (commandFootprint_todecOf k dst src) h
  refine ⟨t, hexec, hperf, hframe, convertedSchedule_of_load128 fun i hi => ?_⟩
  rw [← scheduleOf_todecOf k dst src s]
  exact hload i (by simp only [todecFootprint, schedBytes, schedLen]; omega)

/-- For `op` 2 the condition of R172 is the path bit or bit 7. -/
theorem wordIllegal_iff_of_todec {w : Word} (hop : numOp w = 2) : WordIllegal w ↔ numP w = 1 ∨ numZ7 w = 1 := by
  unfold WordIllegal
  omega

theorem todecWordFaults (s : State) : TodecWordFaults s := by
  intro w rest hmoves hflag hop
  obtain ⟨illegal, badSelector, _⟩ := decoderAppliesTheTestsInOrder w
  rw [wordIllegal_iff_of_todec hop] at illegal badSelector
  exact ⟨fun hbits => stepFaultsWith_of_decode_error hmoves hflag (illegal hbits),
    fun hp hz hsel => stepFaultsWith_of_decode_error hmoves hflag (badSelector (by omega) hsel)⟩

/-- Settles O27: the word, the prologue's faults and the effect for a size at a time; the word's own faults are the
decoder's. -/
theorem todecWritesTheConvertedSchedule : Obligations.TodecWritesTheConvertedSchedule := by
  intro s dst src
  exact ⟨⟨encode_todecOf_toNat .k128 dst src, prologueFaults s _, exec_todecOf_of_ready (k := .k128)⟩,
    ⟨encode_todecOf_toNat .k192 dst src, prologueFaults s _, exec_todecOf_of_ready (k := .k192)⟩,
    ⟨encode_todecOf_toNat .k256 dst src, prologueFaults s _, exec_todecOf_of_ready (k := .k256)⟩,
    todecWordFaults s⟩

end Sys2Proof.Machine
end

section
/-! PROOFS. The converted schedule decrypts (`45_schedule_converter.md` R164). `InvMixColumns` is linear and undoes
`MixColumns` (`40_round_primitives.md` R77), so an inverse round on a converted round key undoes a forward round on the
round key itself; the round sequences then cancel from the innermost round outwards, for every schedule. -/

namespace Sys2Proof.Machine

/-! ## Exclusive-or (R7) -/

theorem KeyWord.xor_xor_cancel_right (a b : KeyWord) : KeyWord.xor (KeyWord.xor a b) b = a := by
  simp [KeyWord.xor]

theorem V128.xor_xor_cancel_right (a b : V128) : V128.xor (V128.xor a b) b = a := by
  simp [V128.xor, KeyWord.xor_xor_cancel_right]

/-! ## InvMixColumns (R76, R77) -/

theorem invMixColumn_xor (a b : KeyWord) :
    invMixColumn (KeyWord.xor a b) = KeyWord.xor (invMixColumn a) (invMixColumn b) := by
  simp only [invMixColumn, KeyWord.xor, gmul_xor_left, KeyWord.mk.injEq]
  refine ⟨?_, ?_, ?_, ?_⟩ <;> ac_rfl

theorem invMixColumns_xor (u v : V128) :
    invMixColumns (V128.xor u v) = V128.xor (invMixColumns u) (invMixColumns v) := by
  simp only [invMixColumns, V128.mapWords, V128.xor, invMixColumn_xor]

theorem gmul_zero (a : Byte) : gmul a 0#8 = 0#8 := by
  rw [gmul_comm, zero_gmul]

/-- A row of coefficients applied to a mixed column is one row of coefficients applied to the column: the row times the
matrix of R76. -/
theorem row_mixColumn (a : KeyWord) (c0 c1 c2 c3 : Byte) :
    gmul (mixColumn a).b0 c0 ^^^ gmul (mixColumn a).b1 c1 ^^^ gmul (mixColumn a).b2 c2 ^^^ gmul (mixColumn a).b3 c3
      = gmul a.b0 (gmul 2#8 c0 ^^^ c1 ^^^ c2 ^^^ gmul 3#8 c3) ^^^ gmul a.b1 (gmul 3#8 c0 ^^^ gmul 2#8 c1 ^^^ c2 ^^^ c3)
        ^^^ gmul a.b2 (c0 ^^^ gmul 3#8 c1 ^^^ gmul 2#8 c2 ^^^ c3)
        ^^^ gmul a.b3 (c0 ^^^ c1 ^^^ gmul 3#8 c2 ^^^ gmul 2#8 c3) := by
  simp only [mixColumn, gmul_xor_left, gmul_xor_right, gmul_assoc]
  ac_rfl

/-- The rows of R77 times the matrix of R76 are the rows of the identity. -/
theorem invMixColumn_mixColumn (a : KeyWord) : invMixColumn (mixColumn a) = a := by
  have twice :
      gmul 2#8 14#8 = 28#8 ∧ gmul 2#8 11#8 = 22#8 ∧ gmul 2#8 13#8 = 26#8 ∧ gmul 2#8 9#8 = 18#8 := by
    decide
  have thrice :
      gmul 3#8 14#8 = 18#8 ∧ gmul 3#8 11#8 = 29#8 ∧ gmul 3#8 13#8 = 23#8 ∧ gmul 3#8 9#8 = 27#8 := by
    decide
  simp [invMixColumn, row_mixColumn, twice, thrice, gmul_one, gmul_zero]

theorem invMixColumns_mixColumns (v : V128) : invMixColumns (mixColumns v) = v := by
  simp only [invMixColumns, mixColumns, V128.mapWords, invMixColumn_mixColumn]

/-! ## A round and its inverse (R74, R81 to R84) -/

theorem KeyWord.mapBytes_invSbox_sbox (a : KeyWord) : KeyWord.mapBytes invSbox (KeyWord.mapBytes sbox a) = a := by
  simp only [KeyWord.mapBytes, invSbox_sbox]

theorem invSubBytes_subBytes (v : V128) : invSubBytes (subBytes v) = v := by
  simp only [invSubBytes, subBytes, V128.mapBytes, V128.mapWords, KeyWord.mapBytes_invSbox_sbox]

/-- The inverse round on a converted round key takes the substituted and shifted result of a forward round back to the
substituted and shifted state before it. -/
theorem invRound_imc_fwdRound (s k : V128) :
    invRound (shiftRows (subBytes (fwdRound s k))) (imc k) = shiftRows (subBytes s) := by
  simp only [invRound, invShiftRows_shiftRows, invSubBytes_subBytes, fwdRound, imc, invMixColumns_xor,
    invMixColumns_mixColumns, V128.xor_xor_cancel_right]

theorem invLast_shiftRows_subBytes (s k : V128) : invLast (shiftRows (subBytes s)) k = V128.xor s k := by
  rw [invLast, invShiftRows_shiftRows, invSubBytes_subBytes]

/-! ## The round sequences (R164) -/

theorem invRounds_succ (sched : List V128) (i count : Nat) (s : V128) :
    invRounds sched i (count + 1) s = invRound (invRounds sched i count s) (roundKey sched (i + count)) := by
  induction count generalizing i s with
  | zero => rfl
  | succ count ih => rw [invRounds, ih, Nat.add_right_comm, Nat.add_assoc]; rfl

/-- The forward rounds `i`, ..., `i + count - 1` are undone by the inverse rounds with their mirror images, which end
with the mirror image `j + count - 1` of `i`. -/
theorem invRounds_convert_fwdRounds (enc : List V128) {n : Nat} (heven : n % 2 = 0) {i j count : Nat} (hi : 0 < i)
    (hj : 0 < j) (hmirror : i + j + count = n + 1) (s : V128) :
    invRounds (convert enc n) j count (shiftRows (subBytes (fwdRounds enc i count s))) = shiftRows (subBytes s) := by
  induction count generalizing i s with
  | zero => rfl
  | succ count ih =>
    have hkey : roundKey (convert enc n) (j + count) = imc (roundKey enc i) := by
      rw [roundKey_convert_interior enc heven (by omega) (by omega) (by omega), show n - (j + count) = i by omega]
    rw [invRounds_succ, fwdRounds, ih (by omega) (by omega), hkey, invRound_imc_fwdRound]

theorem decryptBlock_convert_encryptBlock (enc : List V128) {n : Nat} (heven : n % 2 = 0) (hpos : 0 < n) (pt : V128) :
    decryptBlock (convert enc n) n (encryptBlock enc n pt) = pt := by
  rw [decryptBlock, encryptBlock, fwdLast, roundKey_convert_zero enc heven hpos, roundKey_convert_last enc heven hpos,
    V128.xor_xor_cancel_right, invRounds_convert_fwdRounds enc heven one_pos one_pos (by omega),
    invLast_shiftRows_subBytes, V128.xor_xor_cancel_right]

/-- Settles O42: the converted schedule decrypts for every schedule of an even number of rounds, however it was
expanded. -/
theorem inverseConsistency : Obligations.InverseConsistency := by
  intro p k0 k1 pt
  exact ⟨decryptBlock_convert_encryptBlock _ (rounds_even .k128) (rounds_pos .k128) pt,
    decryptBlock_convert_encryptBlock _ (rounds_even .k192) (rounds_pos .k192) pt,
    decryptBlock_convert_encryptBlock _ (rounds_even .k256) (rounds_pos .k256) pt⟩

end Sys2Proof.Machine
end

section
/-! PROOFS. The faults (`60_exceptions.md` R172 to R176, R179). The decoder and the prologue name the cause of a fault;
and the word of a command that faults is the word that was issued, since a command has no second word
(`30_encoding.md` R52). -/

namespace Sys2Proof.Machine

/-! ## The decoder's causes (R172, R173) -/

/-- Settles O9: the decoder's outcome on such a word, and the step it makes. -/
theorem undecodableWordsFault : Obligations.UndecodableWordsFault := by
  intro s w rest hmoves hflag
  obtain ⟨illegal, badSelector, _⟩ := decoderAppliesTheTestsInOrder w
  exact ⟨fun hw => stepFaultsWith_of_decode_error hmoves hflag (illegal hw),
    fun hw hsel => stepFaultsWith_of_decode_error hmoves hflag (badSelector hw hsel)⟩

/-! ## The prologue's causes (R174 to R176) -/

theorem pathPresent_eq_false_iff (c : Config) (p : Path) :
    pathPresent c p = false ↔ (p = .assisted ∧ c.hasAssist = false) ∨ (p = .emulated ∧ c.hasEmul = false) := by
  cases p <;> simp [pathPresent]

theorem not_fits_iff (c : Config) (f : Footprint) :
    ¬ Footprint.Fits c f ↔ f.src + f.slen > c.memBytes ∨ f.dst + f.dlen > c.memBytes := by
  unfold Footprint.Fits
  omega

/-- Two footprints of a command that reach beyond each other's first byte share a byte. -/
theorem not_disjoint_of_cross {i : Instr} {f : Footprint} (hf : commandFootprint i = some f)
    (hsrc : f.src < f.dst + f.dlen) (hdst : f.dst < f.src + f.slen) : ¬ Footprint.Disjoint f := by
  obtain ⟨hslen, hdlen⟩ := footprint_lengths_pos hf
  simp [← overlaps_eq_false_iff f hslen hdlen, overlaps, hsrc, hdst]

/-- A command has one footprint at most: when it fits, the command's footprints fit. -/
theorem fitsOk_of_fits {c : Config} {i : Instr} {f : Footprint} (hf : commandFootprint i = some f)
    (h : Footprint.Fits c f) : FitsOk c i := by
  intro g hg
  rw [hf, Option.some.injEq] at hg
  exact hg ▸ h

/-- Settles O11: the path condition is the first that fails. -/
theorem expandFaultsOnAbsentPath : Obligations.ExpandFaultsOnAbsentPath := by
  intro s i p hpath hflag habsent
  have hp : pathPresent s.cfg p = false := (pathPresent_eq_false_iff s.cfg p).2 habsent
  obtain ⟨absent, _, _⟩ := prologueFaults s i hflag
  exact absent fun hok => by simpa [hp] using hok p hpath

/-- Settles O12: after the path condition, the range condition is the first that fails. -/
theorem outOfRangeFootprintFaults : Obligations.OutOfRangeFootprintFaults := by
  intro s i f hf hflag hpath hout
  obtain ⟨_, range, _⟩ := prologueFaults s i hflag
  exact range hpath fun hok => (not_fits_iff s.cfg f).2 hout (hok f hf)

/-- Settles O13: only the last condition fails. -/
theorem overlappingFootprintsFault : Obligations.OverlappingFootprintsFault := by
  intro s i f hf hflag hpath hfits hsrc hdst
  obtain ⟨_, _, overlap⟩ := prologueFaults s i hflag
  exact overlap hpath (fitsOk_of_fits hf hfits) fun hok => not_disjoint_of_cross hf hsrc hdst (hok f hf)

/-! ## Fault entry (R179) -/

/-- The codes of R171 in `STATUS` as R12 places them. -/
theorem statusOf_eq_ofNat (c : Cause) : statusOf c = BitVec.ofNat 32 (16 * causeNumber c + 1) := by
  cases c <;> rfl

/-- A decoded word is the word of its command (R52): only a legal word with a selector is decoded. -/
theorem encode_of_decode {w : Word} {i : Instr} (h : decode w = .ok i) : encode i = w := by
  cases hill : illegalWord w with
  | true => simp [decode_of_illegal hill] at h
  | false =>
    cases hk : keySizeOf (fieldSel w) with
    | none => simp [decode_of_badSelector hill hk] at h
    | some k =>
      obtain ⟨j, hdec, henc⟩ := decode_of_legal hill hk
      cases hdec.symm.trans h
      exact henc

theorem issueWord_of_flag {s : State} {w : Word} (hflag : flagF s = true) : issueWord w s = .next (refuse s) := by
  simp [issueWord, hflag]

theorem issueWord_of_decode_ok {s : State} {w : Word} {i : Instr} (hflag : flagF s = false)
    (hdec : decode w = .ok i) : issueWord w s = exec i s := by
  simp [issueWord, hflag, hdec]

/-- An issued word that reports a fault raised it, on itself, on a machine that had not faulted. -/
theorem issueWord_faulted {w : Word} {s t : State} {c : Cause} (h : issueWord w s = .next t)
    (hreport : t.report = .faulted c) : flagF s = false ∧ t = raiseFault c w s := by
  cases hflag : flagF s with
  | true =>
    cases (issueWord_of_flag hflag).symm.trans h
    simp at hreport
  | false =>
    refine ⟨rfl, ?_⟩
    cases hdec : decode w with
    | error cause =>
      cases (issueWord_of_decode_error hflag hdec).symm.trans h
      cases hreport
      rfl
    | ok i =>
      rcases exec_cases ((issueWord_of_decode_ok hflag hdec).symm.trans h) with
        ⟨_, rfl⟩ | ⟨cause, _, _, rfl⟩ | ⟨_, rfl⟩
      · simp at hreport
      · cases hreport
        rw [encode_of_decode hdec]
      · simp at hreport

/-- Settles O16: the step is the sequencer's on the issued word, which raised the fault it reports. -/
theorem faultEntryIsExact : Obligations.FaultEntryIsExact := by
  intro s t w rest c hmoves hstep hreport
  obtain ⟨hflag, ht⟩ := issueWord_faulted ((step_of_issue hmoves).symm.trans hstep) hreport
  refine ⟨(flagF_moves s rest).symm.trans hflag, ?_⟩
  rw [ht, ← statusOf_eq_ofNat]
  rfl

end Sys2Proof.Machine
end

section
/-! PROOFS. The encoding, both ways (`30_encoding.md` R51, R52, R56, R59, R60): the decoder reads the fields that the
encoder packs, so it gives back the command of every word; and the mask of a row of the table covers every field that
the tests of illegal words read for the row's operation, so the words of the table are those the decoder accepts. -/

namespace Sys2Proof.Machine

/-! ## The four operations of the table (R52) -/

/-- Every command is an EXPAND, a TODEC, a ROUNDS or a KEYBYTES of a size. -/
theorem instr_cases (i : Instr) :
    (∃ k dst src p, i = dispatchExpand k dst src p) ∨ (∃ k dst src, i = todecOf k dst src) ∨ (∃ k, i = roundsOf k)
      ∨ ∃ k, i = keybytesOf k := by
  cases i with
  | expand128 dst src p => exact .inl ⟨.k128, dst, src, p, rfl⟩
  | expand192 dst src p => exact .inl ⟨.k192, dst, src, p, rfl⟩
  | expand256 dst src p => exact .inl ⟨.k256, dst, src, p, rfl⟩
  | todec128 dst src => exact .inr (.inl ⟨.k128, dst, src, rfl⟩)
  | todec192 dst src => exact .inr (.inl ⟨.k192, dst, src, rfl⟩)
  | todec256 dst src => exact .inr (.inl ⟨.k256, dst, src, rfl⟩)
  | rounds128 => exact .inr (.inr (.inl ⟨.k128, rfl⟩))
  | rounds192 => exact .inr (.inr (.inl ⟨.k192, rfl⟩))
  | rounds256 => exact .inr (.inr (.inl ⟨.k256, rfl⟩))
  | keybytes128 => exact .inr (.inr (.inr ⟨.k128, rfl⟩))
  | keybytes192 => exact .inr (.inr (.inr ⟨.k192, rfl⟩))
  | keybytes256 => exact .inr (.inr (.inr ⟨.k256, rfl⟩))

/-! ## Decoding a packed word (R51, R57) -/

theorem keySizeOf_selectorOf (k : KeySize) : keySizeOf (selectorOf k) = some k := (keySizeOf_eq_some_iff _ k).2 rfl

theorem pathOf_pathBit (p : Path) : pathOf (pathBit p)[0] = p := by
  cases p <;> rfl

/-- The decoder's branches on a packed word, by its fields. -/
theorem decode_packWord (dst src : Addr) (p : BitVec 1) (k : KeySize) (op : BitVec 4) :
    decode (packWord dst src p (selectorOf k) op)
      = if illegalWord (packWord dst src p (selectorOf k) op) then .error .illegalCmd
        else if op = 1#4 then .ok (dispatchExpand k dst src (pathOf (p.getLsbD 0)))
        else if op = 2#4 then .ok (todecOf k dst src)
        else if op = 3#4 then .ok (roundsOf k)
        else .ok (keybytesOf k) := by
  simp only [decode, fieldSel_packWord, keySizeOf_selectorOf, fieldOp_packWord, fieldDst_packWord, fieldSrc_packWord,
    fieldP_packWord]

theorem illegalWord_packWord (dst src : Addr) (p : BitVec 1) (sel : BitVec 2) (op : BitVec 4) :
    illegalWord (packWord dst src p sel op)
      = ((op == 0#4 || decide (5 ≤ op.toNat)) || ((op == 2#4 || op == 3#4 || op == 4#4) && p.getLsbD 0)
          || ((op == 3#4 || op == 4#4) && (src != 0#12 || dst != 0#12))) := by
  simp only [illegalWord, fieldOp_packWord, fieldP_packWord, fieldZ7_packWord, fieldSrc_packWord, fieldDst_packWord,
    Bool.or_false]

theorem decode_encode (i : Instr) : decode (encode i) = .ok i := by
  rcases instr_cases i with ⟨k, dst, src, p, rfl⟩ | ⟨k, dst, src, rfl⟩ | ⟨k, rfl⟩ | ⟨k, rfl⟩
  · simp [encode_dispatchExpand, decode_packWord, illegalWord_packWord, pathOf_pathBit]
  · simp [encode_todecOf, decode_packWord, illegalWord_packWord]
  · simp [encode_roundsOf, decode_packWord, illegalWord_packWord]
  · simp [encode_keybytesOf, decode_packWord, illegalWord_packWord]

/-- Settles O1: the fields of the packed word are the command's own, and none of the tests of R56 fires on them. -/
theorem decodeOfEncode : Obligations.DecodeOfEncode := decode_encode

/-- Settles O2: a decoded word passed the tests of R56, so it is the packing of its fields. -/
theorem encodeOfDecode : Obligations.EncodeOfDecode := fun _ _ => encode_of_decode

/-! ## The table of masks and matches (R52) -/

/-- What a row's match says of each field. -/
theorem fields_of_matchesWord {r : OpcodeRow} {w : Word} (h : r.matchesWord w = true) :
    fieldOp w &&& fieldOp r.mask = fieldOp r.pattern ∧ fieldSel w &&& fieldSel r.mask = fieldSel r.pattern
      ∧ (fieldP w && fieldP r.mask) = fieldP r.pattern ∧ (fieldZ7 w && fieldZ7 r.mask) = fieldZ7 r.pattern
      ∧ fieldSrc w &&& fieldSrc r.mask = fieldSrc r.pattern ∧ fieldDst w &&& fieldDst r.mask = fieldDst r.pattern := by
  have hand : w &&& r.mask = r.pattern := by simpa [OpcodeRow.matchesWord] using h
  rw [← hand]
  simp [fieldOp, fieldSel, fieldP, fieldZ7, fieldSrc, fieldDst, BitVec.extractLsb'_and]

/-- The mask of a row covers `op`, `sel` and `z7`, and what the tests of R56 read besides for the row's operation: `p`
but for EXPAND, and the addresses for ROUNDS and KEYBYTES. -/
theorem mask_covers_tests : ∀ r ∈ opcodeRows,
    fieldOp r.mask = 15#4 ∧ fieldSel r.mask = 3#2 ∧ fieldZ7 r.mask = true
      ∧ (fieldOp r.pattern = 1#4 ∨ fieldP r.mask = true)
      ∧ (fieldOp r.pattern = 1#4 ∨ fieldOp r.pattern = 2#4
        ∨ (fieldSrc r.mask = 4095#12 ∧ fieldDst r.mask = 4095#12)) := by
  decide

/-- The pattern of a row is itself a legal word with a selector. -/
theorem pattern_legal : ∀ r ∈ opcodeRows,
    illegalWord r.pattern = false ∧ keySizeOf (fieldSel r.pattern) ≠ none := by
  decide

/-- A word that matches a row gives the tests of R56 and the `sel = 3` test what the row's pattern gives them. -/
theorem tests_of_matchesWord {r : OpcodeRow} {w : Word} (hr : r ∈ opcodeRows) (h : r.matchesWord w = true) :
    illegalWord w = illegalWord r.pattern ∧ fieldSel w = fieldSel r.pattern := by
  have and_op : ∀ a : BitVec 4, a &&& 15#4 = a := by decide
  have and_sel : ∀ a : BitVec 2, a &&& 3#2 = a := by decide
  have and_addr : ∀ a : Addr, a &&& 4095#12 = a := fun a => BitVec.and_allOnes (x := a)
  obtain ⟨mop, msel, mz, mp, maddr⟩ := mask_covers_tests r hr
  obtain ⟨hop, hsel, hp, hz, hsrc, hdst⟩ := fields_of_matchesWord h
  rw [mop, and_op] at hop
  rw [msel, and_sel] at hsel
  rw [mz, Bool.and_true] at hz
  refine ⟨?_, hsel⟩
  unfold illegalWord
  rw [hop, hz]
  rcases maddr with ho | ho | ⟨ms, md⟩
  · simp [ho]
  · have hp' : fieldP w = fieldP r.pattern := by simpa [mp.resolve_left (by simp [ho])] using hp
    simp [ho, hp']
  · rw [ms, and_addr] at hsrc
    rw [md, and_addr] at hdst
    rw [hsrc, hdst]
    rcases mp with ho | mp
    · simp [ho]
    · rw [mp, Bool.and_true] at hp
      rw [hp]

theorem decode_of_matchesWord {r : OpcodeRow} {w : Word} (hr : r ∈ opcodeRows) (h : r.matchesWord w = true) :
    ∃ i, decode w = .ok i := by
  obtain ⟨hlegal, hsel⟩ := tests_of_matchesWord hr h
  obtain ⟨plegal, psel⟩ := pattern_legal r hr
  obtain ⟨k, hk⟩ := Option.ne_none_iff_exists'.1 psel
  obtain ⟨i, hdec, _⟩ := decode_of_legal (hlegal.trans plegal) (hsel ▸ hk)
  exact ⟨i, hdec⟩

/-- The row of a decoded command is of the table and matches the word, for the word is the command's own. -/
theorem row_of_decode {w : Word} {i : Instr} (h : decode w = .ok i) :
    i.row ∈ opcodeRows ∧ i.row.matchesWord w = true := by
  obtain ⟨hmem, hmatch⟩ := rowMatch i
  exact ⟨hmem, encode_of_decode h ▸ hmatch⟩

/-- Settles O3: a word that matches a row passes the decoder's tests, as the row's pattern does; a decoded word matches
the row of its command. -/
theorem decoderAcceptsExactlyTheRows : Obligations.DecoderAcceptsExactlyTheRows := by
  refine ⟨fun w => ⟨fun ⟨i, h⟩ => ?_, fun h => ?_⟩, fun w i => row_of_decode⟩
  · exact List.any_eq_true.2 ⟨i.row, row_of_decode h⟩
  · obtain ⟨r, hr, hmatch⟩ := List.any_eq_true.1 h
    exact decode_of_matchesWord hr hmatch

/-- Where the masks of two rows overlap their patterns differ, unless the rows are one. -/
theorem patterns_differ : ∀ r ∈ opcodeRows, ∀ r' ∈ opcodeRows,
    r.pattern &&& r'.mask = r'.pattern &&& r.mask → r = r' := by
  decide

/-- Settles O4: both patterns are the word under both masks. -/
theorem opcodeRowsAreDisjoint : Obligations.OpcodeRowsAreDisjoint := by
  intro w r r' hr hr' h h'
  have hand : w &&& r.mask = r.pattern := by simpa [OpcodeRow.matchesWord] using h
  have hand' : w &&& r'.mask = r'.pattern := by simpa [OpcodeRow.matchesWord] using h'
  refine patterns_differ r hr r' hr' ?_
  rw [← hand, ← hand', BitVec.and_assoc, BitVec.and_assoc, BitVec.and_comm r.mask]

/-! ## The assembler (R59, R60) -/

theorem selectorOf_toNat (k : KeySize) : (selectorOf k).toNat = sizeNumber k := by
  cases k <;> rfl

/-- The word of operands in range is the number of its fields. -/
theorem packWord_ofNat {dst src : Nat} (hdst : dst ≤ 4095) (hsrc : src ≤ 4095) (p : BitVec 1) (k : KeySize)
    (op : BitVec 4) :
    packWord (BitVec.ofNat 12 dst) (BitVec.ofNat 12 src) p (selectorOf k) op
      = BitVec.ofNat 32 (numWord dst src p.toNat (16 * sizeNumber k + op.toNat)) := by
  have hd : (BitVec.ofNat 12 dst).toNat = dst := by rw [BitVec.toNat_ofNat, Nat.mod_eq_of_lt (by omega)]
  have hs : (BitVec.ofNat 12 src).toNat = src := by rw [BitVec.toNat_ofNat, Nat.mod_eq_of_lt (by omega)]
  have h := packWord_toNat (BitVec.ofNat 12 dst) (BitVec.ofNat 12 src) p (selectorOf k) op
  rw [hd, hs, selectorOf_toNat] at h
  rw [← h, BitVec.ofNat_toNat, BitVec.setWidth_eq]

/-- A line that names a command has that command's word, if its numbers can be encoded. -/
theorem assemble_of_command {l : AsmLine} {i : Instr} (h : l.command = some i) :
    assemble l = if l.wf then some (encode i) else none := by
  cases l with
  | word n => simp [AsmLine.command] at h
  | _ => simp only [assemble, h, Option.map_some]

/-- A line in range whose command has a word of these fields has the number of the fields as its word. -/
theorem assemble_eq_numWord {l : AsmLine} {i : Instr} {dst src : Nat} {k : KeySize} {p : BitVec 1} {op : BitVec 4}
    {pn opn : Nat} (hp : p.toNat = pn) (hop : op.toNat = opn) (hdst : dst ≤ 4095) (hsrc : src ≤ 4095)
    (hl : l.command = some i) (hwf : l.wf = true)
    (henc : encode i = packWord (BitVec.ofNat 12 dst) (BitVec.ofNat 12 src) p (selectorOf k) op) :
    assemble l = some (BitVec.ofNat 32 (numWord dst src pn (16 * sizeNumber k + opn))) := by
  rw [assemble_of_command hl, if_pos hwf, henc, packWord_ofNat hdst hsrc, hp, hop]

/-- Settles O7: the word of a line is that of its command, which the fields of the line number; the command decodes from
it. -/
theorem assemblerWordsDecode : Obligations.AssemblerWordsDecode := by
  refine ⟨fun k dst src hdst hsrc => ?_, fun k => ⟨?_, ?_⟩, fun n hn => ?_, fun k suffix dst src hout => ?_,
    fun n hn => ?_, fun l i w hw hl => ?_⟩
  · have hwf : (decide (dst ≤ 4095) && decide (src ≤ 4095)) = true := by simp [hdst, hsrc]
    have expand := fun p => encode_dispatchExpand k (BitVec.ofNat 12 dst) (BitVec.ofNat 12 src) p
    exact ⟨assemble_eq_numWord rfl rfl hdst hsrc rfl hwf (expand .assisted),
      assemble_eq_numWord rfl rfl hdst hsrc rfl hwf (expand .assisted),
      assemble_eq_numWord rfl rfl hdst hsrc rfl hwf (expand .emulated),
      assemble_eq_numWord rfl rfl hdst hsrc rfl hwf (encode_todecOf k _ _),
      assemble_eq_numWord rfl rfl hdst hsrc rfl hwf (expand .assisted)⟩
  · exact assemble_eq_numWord rfl rfl (Nat.zero_le _) (Nat.zero_le _) rfl rfl (encode_roundsOf k)
  · exact assemble_eq_numWord rfl rfl (Nat.zero_le _) (Nat.zero_le _) rfl rfl (encode_keybytesOf k)
  · simp only [assemble, AsmLine.wf, hn, decide_true, if_true]
  · have hwf : ¬ (decide (dst ≤ 4095) && decide (src ≤ 4095)) = true := by
      rw [Bool.and_eq_true, decide_eq_true_eq, decide_eq_true_eq]
      omega
    exact ⟨(assemble_of_command rfl).trans (if_neg hwf), (assemble_of_command rfl).trans (if_neg hwf),
      (assemble_of_command rfl).trans (if_neg hwf)⟩
  · simp only [assemble, AsmLine.wf, Nat.not_lt.2 hn, decide_false, Bool.false_eq_true, if_false]
  · rw [assemble_of_command hl] at hw
    split at hw
    · cases hw
      exact decode_encode i
    · cases hw

/-- Settles O6, by evaluating the decoder on each word. -/
theorem sampleWordsDecode : Obligations.SampleWordsDecode := by
  unfold Obligations.SampleWordsDecode
  decide

end Sys2Proof.Machine
end

section
/-! PROOFS. A step, move by move, and what every step keeps (`70_reset_and_hazards.md` R191, R199 to R201,
`60_exceptions.md` R180, `10_state.md` R11 to R15). One case split says everything a step can do to the machine; each
invariant is then a case of it at a time. -/

namespace Sys2Proof.Machine

/-! ## The step on each of the host's moves (R201) -/

section
variable {s : State} {rest : List HostMove}

theorem step_of_reset (h : s.moves = .reset :: rest) : step s = .next (resetEntry { s with moves := rest }) := by
  simp only [step, takeMove, h, hostMove]

theorem step_of_write {a : Nat} {bs : List Byte} (h : s.moves = .write a bs :: rest) :
    step s = hostWrite a bs { s with moves := rest } := by
  simp only [step, takeMove, h, hostMove]

theorem step_of_read {a n : Nat} (h : s.moves = .read a n :: rest) :
    step s = hostRead a n { s with moves := rest } := by
  simp only [step, takeMove, h, hostMove]

theorem step_of_readReg {r : HostReg} (h : s.moves = .readReg r :: rest) :
    step s = .next { s with moves := rest, obs := s.obs ++ [.reg (readReg s r)] } := by
  simp only [step, takeMove, h, hostMove, hostReadReg]
  cases r <;> rfl

theorem hostWrite_of_fits (s : State) {a : Nat} {bs : List Byte} (hbs : bs ≠ [])
    (hfit : a + bs.length ≤ s.cfg.memBytes) : hostWrite a bs s = .next (State.memWrite s a bs) := by
  simp [hostWrite, hbs, hfit]

theorem memRead_congr {s t : State} (h : ∀ a, State.readByte t a = State.readByte s a) (a n : Nat) :
    State.memRead t a n = State.memRead s a n := by
  induction n generalizing a with
  | zero => rfl
  | succ n ih => simp only [State.memRead, h, ih]

/-- A read inside `MEM` appends the bytes to the observations. -/
theorem step_of_read_of_fits {a n : Nat} (h : s.moves = .read a n :: rest) (hfit : a + n ≤ s.cfg.memBytes) :
    step s = .next { s with moves := rest, obs := s.obs ++ [.bytes (State.memRead s a n)] } := by
  have hbytes := memRead_congr (s := s) (t := { s with moves := rest }) (fun _ => rfl) a n
  rw [step_of_read h, hostRead, if_pos hfit, hbytes]

/-- A write of at least one byte inside `MEM` stores the bytes. -/
theorem step_of_write_of_fits {a : Nat} {bs : List Byte} (h : s.moves = .write a bs :: rest) (hbs : bs ≠ [])
    (hfit : a + bs.length ≤ s.cfg.memBytes) : step s = .next (State.memWrite { s with moves := rest } a bs) := by
  rw [step_of_write h]
  exact hostWrite_of_fits { s with moves := rest } hbs hfit

end

/-! ## The host's obligations -/

/-- Settles O44: the step is a `MemWrite`. -/
theorem hostWriteStores : Obligations.HostWriteStores := by
  intro s a bytes rest hmoves hne hfit
  refine ⟨_, step_of_write_of_fits hmoves hne hfit, rfl, fun i hi => readByte_memWrite_inside _ a bytes i hi,
    fun b hb => ?_, ⟨rfl, rfl, rfl⟩, ⟨rfl, rfl, rfl⟩, rfl, rfl, rfl, rfl⟩
  unfold InBytes at hb
  exact readByte_memWrite_outside { s with moves := rest } a bytes (by omega)

/-- Settles O45: the bytes are a `MemRead`, the value is the register's. -/
theorem hostReadsReturn : Obligations.HostReadsReturn := by
  refine ⟨fun s a n rest hmoves hfit => ?_, fun s rest => ⟨step_of_readReg, step_of_readReg, step_of_readReg⟩⟩
  exact ⟨State.memRead s a n, memRead_length s a n, fun i hi => memRead_getElem s a n i hi,
    step_of_read_of_fits hmoves hfit⟩

/-- Settles O46: reset clears the registers and the list of written bytes. -/
theorem hostResetClears : Obligations.HostResetClears := fun _ _ hmoves =>
  ⟨_, step_of_reset hmoves, rfl, rfl, rfl, rfl, rfl, rfl, rfl, fun _ => rfl⟩

/-- Settles O47: the bounds test of the two accesses, and the test of the empty write before it. -/
theorem inexpressibleMovesStop : Obligations.InexpressibleMovesStop := by
  intro s a n bytes rest
  refine ⟨fun h hout => ?_, fun h hne hout => ?_, fun h => ?_⟩
  · rw [step_of_read h, hostRead, if_neg (Nat.not_le.2 hout)]
  · rw [step_of_write h, hostWrite, if_neg (by simpa using hne), if_neg (Nat.not_le.2 hout)]
  · rw [step_of_write h]
    rfl

/-! ## Issued words -/

/-- A decoded word runs its command, faulted or not: the command's own prologue refuses it as the sequencer does. -/
theorem issueWord_of_decode {w : Word} {i : Instr} (h : decode w = .ok i) (s : State) : issueWord w s = exec i s := by
  cases hflag : flagF s with
  | true => rw [issueWord_of_flag hflag, exec_eq_command, command_refused hflag]
  | false => exact issueWord_of_decode_ok hflag h

/-- Settles O8: the step is the sequencer's on the word, which runs the decoded command. -/
theorem stepRunsTheDecodedCommand : Obligations.StepRunsTheDecodedCommand := by
  intro s w rest i hmoves hdec
  rw [step_of_issue hmoves, issueWord_of_decode hdec]

/-- Settles O10: test 0 comes first in the sequencer and in every command; the host's other moves do not look at the
flag. -/
theorem faultedMachineRefusesEveryCommand : Obligations.FaultedMachineRefusesEveryCommand := by
  refine ⟨fun s w rest hmoves hflag => ?_, fun s i hflag => ?_, fun s a n bytes r rest _ => ?_⟩
  · rw [step_of_issue hmoves, issueWord_of_flag ((flagF_moves s rest).trans hflag)]
    rfl
  · rw [exec_eq_command, command_refused hflag]
    rfl
  · exact ⟨step_of_write_of_fits, step_of_read_of_fits, step_of_readReg⟩

/-! ## Everything a step can do to the machine -/

/-- The host-visible registers, the memory and the parameters are the same. -/
structure SameMachine (s t : State) : Prop where
  cfg : t.cfg = s.cfg
  mem : t.mem = s.mem
  resets : t.resets = s.resets
  res : t.res = s.res
  status : t.status = s.status
  fcmd : t.fcmd = s.fcmd

/-- A step leaves the machine alone (no move, a reading move, a refused word), resets it, stores the bytes of a host
write, takes a fault, or performs a ready command. -/
theorem step_machine_cases {s t : State} (h : step s = .next t) :
    SameMachine s t
      ∨ (∃ rest, s.moves = .reset :: rest ∧ t = resetEntry { s with moves := rest })
      ∨ (∃ rest a bs, s.moves = .write a bs :: rest ∧ a + bs.length ≤ s.cfg.memBytes
          ∧ t = State.memWrite { s with moves := rest } a bs)
      ∨ (∃ rest c w, flagF s = false ∧ t = raiseFault c w { s with moves := rest })
      ∨ (∃ rest w i, s.moves = .issue w :: rest ∧ decode w = .ok i ∧ Ready s i
          ∧ t = consume .performed (performOf i { s with moves := rest })) := by
  rcases step_cases h with ⟨_, rfl⟩ | reset | ⟨rest, a, bs, hm, _, hfit, rfl⟩ | ⟨m, rest, o, _, _, rfl⟩
    | ⟨rest, w, hm, hissue⟩
  · exact .inl ⟨rfl, rfl, rfl, rfl, rfl, rfl⟩
  · exact .inr (.inl reset)
  · exact .inr (.inr (.inl ⟨rest, a, bs, hm, hfit, rfl⟩))
  · exact .inl ⟨rfl, rfl, rfl, rfl, rfl, rfl⟩
  · rcases issueWord_cases hissue with ⟨_, rfl⟩ | ⟨c, w', hflag, rfl⟩ | ⟨i, hdec, hready, rfl⟩
    · exact .inl ⟨rfl, rfl, rfl, rfl, rfl, rfl⟩
    · exact .inr (.inr (.inr (.inl ⟨rest, c, w', hflag, rfl⟩)))
    · exact .inr (.inr (.inr (.inr ⟨rest, w, i, hm, hdec, hready, rfl⟩)))

/-! ## The invariants -/

/-- Settles O49: a write and a performed command store inside `MEM`, a reset empties the list of written bytes, and no
other move touches it. -/
theorem memoryStaysCanonical : Obligations.MemoryStaysCanonical := by
  intro s t hs hstep
  rcases step_machine_cases hstep with same | ⟨rest, _, rfl⟩ | ⟨rest, a, bs, _, hfit, rfl⟩ | ⟨rest, c, w, _, rfl⟩
    | ⟨rest, w, i, _, _, ⟨_, _, hfits, _⟩, rfl⟩
  · unfold MemCanonical
    rwa [same.cfg, same.mem]
  · rfl
  · exact memWrite_wf { s with moves := rest } a bs hs hfit
  · exact hs
  · exact performOf_wf (s := { s with moves := rest }) hs hfits

theorem faultRecordLegal_of_status {t : State} {c : Cause} (h : t.status = statusOf c) : FaultRecordLegal t := by
  refine .inr ?_
  rw [h]
  cases c <;> decide

/-- Settles O50: a fault writes the code of its cause, a reset clears both registers, no other move writes either. -/
theorem faultRecordStaysLegal : Obligations.FaultRecordStaysLegal := by
  intro s t hs hstep
  rcases step_machine_cases hstep with same | ⟨rest, _, rfl⟩ | ⟨rest, a, bs, _, _, rfl⟩ | ⟨rest, c, w, _, rfl⟩
    | ⟨rest, w, i, _, _, _, rfl⟩
  · unfold FaultRecordLegal
    rwa [same.status, same.fcmd]
  · exact .inl ⟨rfl, rfl⟩
  · exact hs
  · exact faultRecordLegal_of_status (c := c) rfl
  · obtain ⟨_, hstatus, hfcmd, _⟩ := performOf_frame i { s with moves := rest }
    unfold FaultRecordLegal
    rwa [consume_status, consume_fcmd, hstatus, hfcmd]

/-- What ROUNDS and KEYBYTES leave in `RES`. -/
def accessorValues : List Word := [10#32, 12#32, 14#32, 16#32, 24#32, 32#32]

/-- A command without footprints is a ROUNDS or a KEYBYTES of a size: it writes a constant. -/
theorem performOf_eq_setRes {i : Instr} (h : commandFootprint i = none) :
    ∃ v ∈ accessorValues, ∀ s, performOf i s = setRes s v := by
  rcases instr_cases i with ⟨k, dst, src, p, rfl⟩ | ⟨k, dst, src, rfl⟩ | ⟨k, rfl⟩ | ⟨k, rfl⟩
  · cases k <;> cases h
  · cases k <;> cases h
  · exact ⟨BitVec.ofNat 32 (rounds k), by cases k <;> decide, fun s => by cases k <;> rfl⟩
  · exact ⟨BitVec.ofNat 32 (keyBytes k), by cases k <;> decide, fun s => by cases k <;> rfl⟩

theorem resLegal_setRes {v : Word} (h : v ∈ accessorValues) (s : State) : ResLegal (setRes s v) := by
  simp only [accessorValues, List.mem_cons, List.not_mem_nil, or_false] at h
  exact .inr h

theorem resLegal_performOf {i : Instr} {s : State} (hs : ResLegal s) : ResLegal (performOf i s) := by
  cases hf : commandFootprint i with
  | some f =>
    unfold ResLegal
    rwa [performOf_res hf]
  | none =>
    obtain ⟨v, hv, hset⟩ := performOf_eq_setRes hf
    exact hset s ▸ resLegal_setRes hv s

/-- Settles O51: only a reset and a performed ROUNDS or KEYBYTES write `RES`. -/
theorem resStaysLegal : Obligations.ResStaysLegal := by
  intro s t hs hstep
  rcases step_machine_cases hstep with same | ⟨rest, _, rfl⟩ | ⟨rest, a, bs, _, _, rfl⟩ | ⟨rest, c, w, _, rfl⟩
    | ⟨rest, w, i, _, _, _, rfl⟩
  · unfold ResLegal
    rwa [same.res]
  · exact .inl rfl
  · exact hs
  · exact hs
  · exact resLegal_performOf (s := { s with moves := rest }) hs

/-- Settles O52, by the values of the state after reset. -/
theorem resetMeetsTheInvariants : Obligations.ResetMeetsTheInvariants :=
  ⟨rfl, rfl, .inl ⟨rfl, rfl⟩, .inl rfl, rfl, rfl, rfl⟩

/-- Settles O53: a faulted machine takes no fault and performs no command, so all that a step other than reset can write
is memory. -/
theorem onlyResetClearsAFault : Obligations.OnlyResetClearsAFault := by
  intro s t hflag hstep hmove
  rcases step_machine_cases hstep with same | ⟨rest, hm, _⟩ | ⟨rest, a, bs, _, _, rfl⟩ | ⟨_, _, _, hclear, _⟩
    | ⟨_, _, _, _, _, ⟨hclear, _⟩, _⟩
  · exact ⟨same.status, same.fcmd, same.res, (flagF_congr same.status).trans hflag⟩
  · simp [hm] at hmove
  · exact ⟨rfl, rfl, rfl, hflag⟩
  · simp [hflag] at hclear
  · simp [hflag] at hclear

/-- Settles O54: nothing a step can do writes the parameters. -/
theorem parametersNeverChange : Obligations.ParametersNeverChange := by
  intro s t hstep
  rcases step_machine_cases hstep with same | ⟨rest, _, rfl⟩ | ⟨rest, a, bs, _, _, rfl⟩ | ⟨rest, c, w, _, rfl⟩
    | ⟨rest, w, i, _, _, _, rfl⟩
  · exact same.cfg
  · rfl
  · rfl
  · rfl
  · exact (performOf_frame i { s with moves := rest }).1

/-- Settles O56: the byte is not one that a `MemWrite` or a stored schedule leaves alone. -/
theorem onlyNamedMovesWriteMemory : Obligations.OnlyNamedMovesWriteMemory := by
  intro s t m rest a hmoves hstep hchange
  rcases step_machine_cases hstep with same | ⟨rest', hm, rfl⟩ | ⟨rest', b, bs, hm, _, rfl⟩ | ⟨rest', c, w, _, rfl⟩
    | ⟨rest', w, i, hm, hdec, hready, rfl⟩
  · exact absurd (readByte_congr same.mem same.resets a) hchange
  · cases hmoves.symm.trans hm
    exact .inl rfl
  · cases hmoves.symm.trans hm
    refine .inr (.inl ⟨b, bs, rfl, ?_⟩)
    by_contra hout
    unfold InBytes at hout
    exact hchange (readByte_memWrite_outside { s with moves := rest } b bs (by omega))
  · exact absurd rfl hchange
  · cases hmoves.symm.trans hm
    cases hf : commandFootprint i with
    | none =>
      obtain ⟨v, hv⟩ := performOf_accessor hf { s with moves := rest }
      rw [hv] at hchange
      exact absurd rfl hchange
    | some f =>
      refine .inr (.inr ⟨w, i, f, rfl, hdec, hready, hf, ?_⟩)
      by_contra hout
      exact hchange (readByte_performOf_outside hf { s with moves := rest } hout)

/-! ## The host's list and `CMDIDX` (R15, R199, R200) -/

/-- What an issued word does to the host's list and to `CMDIDX`. -/
theorem issueWord_counts {w : Word} {s t : State} (h : issueWord w s = .next t) :
    t.moves = s.moves ∧ t.cmdIdx = if flagF s then s.cmdIdx else s.cmdIdx + 1 := by
  rcases issueWord_cases h with ⟨hflag, rfl⟩ | ⟨c, w', hflag, rfl⟩ | ⟨i, _, ⟨hflag, _⟩, rfl⟩
  · simp [hflag]
  · simp [hflag]
  · obtain ⟨_, _, _, hmoves, _, hidx, _⟩ := performOf_frame i s
    simp [hflag, hmoves, hidx]

/-- Settles O55: an issued word counts unless it is refused, a reset clears the count, and no other move touches it. -/
theorem cmdIdxCountsConsumedCommands : Obligations.CmdIdxCountsConsumedCommands := by
  intro s t m rest hmoves hstep
  cases m with
  | reset =>
    cases (step_of_reset hmoves).symm.trans hstep
    rfl
  | issue w => exact (issueWord_counts ((step_of_issue hmoves).symm.trans hstep)).2
  | write a bs =>
    have h := (step_of_write hmoves).symm.trans hstep
    unfold hostWrite at h
    split_ifs at h
    cases h
    rfl
  | read a n =>
    have h := (step_of_read hmoves).symm.trans hstep
    unfold hostRead at h
    split_ifs at h
    cases h
    rfl
  | readReg r =>
    cases (step_of_readReg hmoves).symm.trans hstep
    rfl

/-- A move that can be expressed is taken: the step ends in a next state with the rest of the list. -/
theorem step_of_wf_move {s : State} {m : HostMove} {rest : List HostMove} (hmoves : s.moves = m :: rest)
    (hwf : m.wf s.cfg = true) : ∃ t, step s = .next t ∧ t.moves = rest := by
  cases m with
  | reset => exact ⟨_, step_of_reset hmoves, rfl⟩
  | write a bs =>
    simp only [HostMove.wf, Bool.and_eq_true, decide_eq_true_eq] at hwf
    obtain ⟨hlen, hfit⟩ := hwf
    exact ⟨_, step_of_write_of_fits hmoves (List.ne_nil_of_length_pos hlen) hfit, rfl⟩
  | read a n => exact ⟨_, step_of_read_of_fits hmoves (by simpa [HostMove.wf] using hwf), rfl⟩
  | readReg r => exact ⟨_, step_of_readReg hmoves, rfl⟩
  | issue w =>
    obtain ⟨t, ht⟩ := issueWord_total w { s with moves := rest }
    exact ⟨t, (step_of_issue hmoves).trans ht, (issueWord_counts ht).1⟩

theorem run_succ {s t : State} (h : step s = .next t) (n : Nat) : core.run (n + 1) s = core.run n t := by
  have hcore : core.step s = .next t := h
  simp only [Host.Core.run, hcore]

/-- The moves left after a step can still be expressed, for the parameters are the same. -/
theorem run_ends {ms : List HostMove} {s : State} (hmoves : s.moves = ms) (hok : MovesOk s) :
    ∃ t, core.run ms.length s = .next t ∧ RunEnded t := by
  induction ms generalizing s with
  | nil => exact ⟨s, rfl, hmoves⟩
  | cons m ms ih =>
    obtain ⟨t, hstep, ht⟩ := step_of_wf_move hmoves (hok m (by simp [hmoves]))
    have hok' : MovesOk t := by
      intro m' hm'
      rw [parametersNeverChange s t hstep]
      exact hok m' (by rw [hmoves, ← ht]; exact List.mem_cons_of_mem m hm')
    obtain ⟨u, hrun, hend⟩ := ih ht hok'
    exact ⟨u, (run_succ hstep ms.length).trans hrun, hend⟩

/-- Settles O48, by induction on the pending moves. -/
theorem runsEnd : Obligations.RunsEnd := by
  refine ⟨fun s => run_ends rfl, fun s hend => ?_⟩
  unfold RunEnded at hend
  simp only [step, takeMove, hend]

end Sys2Proof.Machine
end

section
/-! PROOFS. What is reported of a word (`44_dispatch_accessors.md` R150, `60_exceptions.md` R178): the prologue's tests
on a command are the tests on the numbers of the fields of its word (`20_memory.md` R34), so the report is a function of
the word, `STATUS.F` and the parameters. -/

namespace Sys2Proof.Machine

/-! ## The numbers of the fields of a command's word (R34, R51) -/

theorem commandPath_dispatchExpand (k : KeySize) (dst src : Addr) (p : Path) :
    commandPath (dispatchExpand k dst src p) = some p := by
  cases k <;> rfl

theorem commandPath_todecOf (k : KeySize) (dst src : Addr) : commandPath (todecOf k dst src) = none := by
  cases k <;> rfl

theorem commandFootprint_dispatchExpand (k : KeySize) (dst src : Addr) (p : Path) :
    commandFootprint (dispatchExpand k dst src p) = some (expandFootprint k dst src) := by
  cases k <;> rfl

theorem accessor_no_operands (k : KeySize) :
    (commandPath (roundsOf k) = none ∧ commandFootprint (roundsOf k) = none)
      ∧ commandPath (keybytesOf k) = none ∧ commandFootprint (keybytesOf k) = none := by
  cases k <;> exact ⟨⟨rfl, rfl⟩, rfl, rfl⟩

section
variable (dst src : Addr) (p : BitVec 1) (k : KeySize) (op : BitVec 4)

theorem numOp_packWord (sel : BitVec 2) : numOp (packWord dst src p sel op) = op.toNat := by
  rw [numOp_eq, fieldOp_packWord]

theorem numP_packWord (sel : BitVec 2) : numP (packWord dst src p sel op) = p.toNat := by
  have bit_toNat : ∀ b : BitVec 1, (b.getLsbD 0).toNat = b.toNat := by decide
  rw [numP_eq, fieldP_packWord, bit_toNat]

theorem numSrc_packWord (sel : BitVec 2) : numSrc (packWord dst src p sel op) = src.toNat := by
  rw [numSrc_eq, fieldSrc_packWord]

theorem numDst_packWord (sel : BitVec 2) : numDst (packWord dst src p sel op) = dst.toNat := by
  rw [numDst_eq, fieldDst_packWord]

theorem numDlen_packWord : numDlen (packWord dst src p (selectorOf k) op) = schedBytes k := by
  rw [numDlen, numSel_eq, fieldSel_packWord]
  cases k <;> rfl

theorem numSlen_packWord_expand : numSlen (packWord dst src p (selectorOf k) 1#4) = keyBytes k := by
  rw [numSlen, numSel_eq, fieldSel_packWord, numOp_packWord]
  cases k <;> rfl

theorem numSlen_packWord_todec : numSlen (packWord dst src p (selectorOf k) 2#4) = schedBytes k := by
  rw [numSlen, numSel_eq, fieldSel_packWord, numOp_packWord]
  cases k <;> rfl

end

/-! ## The prologue's tests on the word (R174 to R176) -/

theorem pathTest_iff (c : Config) (i : Instr) :
    (commandPath i).any (fun p => !pathPresent c p) = true ↔ WordPathAbsent c (encode i) := by
  rcases instr_cases i with ⟨k, dst, src, p, rfl⟩ | ⟨k, dst, src, rfl⟩ | ⟨k, rfl⟩ | ⟨k, rfl⟩
  · rw [commandPath_dispatchExpand, encode_dispatchExpand, WordPathAbsent, numOp_packWord, numP_packWord, pathBit_toNat]
    cases p <;> simp [pathPresent, pathNumber]
  · simp [commandPath_todecOf, encode_todecOf, WordPathAbsent, numOp_packWord]
  · simp [accessor_no_operands k, encode_roundsOf, WordPathAbsent, numOp_packWord]
  · simp [accessor_no_operands k, encode_keybytesOf, WordPathAbsent, numOp_packWord]

theorem inRange_eq_false_iff (c : Config) (f : Footprint) :
    inRange c f = false ↔ f.src + f.slen > c.memBytes ∨ f.dst + f.dlen > c.memBytes := by
  rw [← not_fits_iff, ← Bool.not_eq_true, not_iff_not]
  simp only [inRange, Footprint.Fits, Bool.and_eq_true, decide_eq_true_eq]

theorem rangeTest_iff (c : Config) (i : Instr) :
    (commandFootprint i).any (fun f => !inRange c f) = true ↔ WordOutOfRange c (encode i) := by
  rcases instr_cases i with ⟨k, dst, src, p, rfl⟩ | ⟨k, dst, src, rfl⟩ | ⟨k, rfl⟩ | ⟨k, rfl⟩
  · simp [commandFootprint_dispatchExpand, encode_dispatchExpand, WordOutOfRange, numOp_packWord, numSrc_packWord,
      numDst_packWord, numDlen_packWord, numSlen_packWord_expand, inRange_eq_false_iff, expandFootprint, addrOf]
  · simp [commandFootprint_todecOf, encode_todecOf, WordOutOfRange, numOp_packWord, numSrc_packWord,
      numDst_packWord, numDlen_packWord, numSlen_packWord_todec, inRange_eq_false_iff, todecFootprint, addrOf]
  · simp [accessor_no_operands k, encode_roundsOf, WordOutOfRange, numOp_packWord]
  · simp [accessor_no_operands k, encode_keybytesOf, WordOutOfRange, numOp_packWord]

theorem overlapTest_iff (i : Instr) : (commandFootprint i).any overlaps = true ↔ WordOverlaps (encode i) := by
  rcases instr_cases i with ⟨k, dst, src, p, rfl⟩ | ⟨k, dst, src, rfl⟩ | ⟨k, rfl⟩ | ⟨k, rfl⟩
  · simp [commandFootprint_dispatchExpand, encode_dispatchExpand, WordOverlaps, numOp_packWord, numSrc_packWord,
      numDst_packWord, numDlen_packWord, numSlen_packWord_expand, overlaps, expandFootprint, addrOf]
  · simp [commandFootprint_todecOf, encode_todecOf, WordOverlaps, numOp_packWord, numSrc_packWord,
      numDst_packWord, numDlen_packWord, numSlen_packWord_todec, overlaps, todecFootprint, addrOf]
  · simp [accessor_no_operands k, encode_roundsOf, WordOverlaps, numOp_packWord]
  · simp [accessor_no_operands k, encode_keybytesOf, WordOverlaps, numOp_packWord]

/-! ## The report (R178) -/

/-- What the step reports of each verdict of the prologue. -/
def Verdict.report : Verdict → Report
  | .refuse => .refused
  | .fault c => .faulted c
  | .perform => .performed

theorem exec_report {i : Instr} {s t : State} (h : exec i s = .next t) :
    t.report = (prologue s (commandPath i) (commandFootprint i)).report := by
  rw [exec_eq_command] at h
  rcases command_cases h with ⟨hv, _, rfl⟩ | ⟨c, hv, _, rfl⟩ | ⟨hv, _, rfl⟩ <;> rw [hv] <;> rfl

theorem prologue_report (s : State) (i : Instr) :
    (prologue s (commandPath i) (commandFootprint i)).report
      = if flagF s then .refused
        else if WordPathAbsent s.cfg (encode i) then .faulted .pathUnavailable
        else if WordOutOfRange s.cfg (encode i) then .faulted .range
        else if WordOverlaps (encode i) then .faulted .overlap
        else .performed := by
  simp only [prologue, ← pathTest_iff, ← rangeTest_iff, ← overlapTest_iff, apply_ite Verdict.report]
  rfl

theorem issueWord_report {w : Word} {s t : State} (h : issueWord w s = .next t) :
    t.report = if flagF s then .refused else wordReport s.cfg w := by
  cases hflag : flagF s with
  | true =>
    cases (issueWord_of_flag hflag).symm.trans h
    rfl
  | false =>
    obtain ⟨illegal, badSelector, legal⟩ := decoderAppliesTheTestsInOrder w
    rw [if_neg Bool.false_ne_true, wordReport]
    by_cases hill : WordIllegal w
    · cases (issueWord_of_decode_error hflag (illegal hill)).symm.trans h
      rw [if_pos hill, raiseFault_report]
    · rw [if_neg hill]
      by_cases hsel : numSel w = 3
      · cases (issueWord_of_decode_error hflag (badSelector hill hsel)).symm.trans h
        rw [if_pos hsel, raiseFault_report]
      · obtain ⟨i, hdec, _⟩ := legal hill hsel
        rw [exec_report ((issueWord_of_decode hdec s).symm.trans h), prologue_report, encode_of_decode hdec, hflag,
          if_neg Bool.false_ne_true, if_neg hsel]

theorem step_report {s t : State} {w : Word} {rest : List HostMove} (hmoves : s.moves = .issue w :: rest)
    (h : step s = .next t) : t.report = if flagF s then .refused else wordReport s.cfg w :=
  issueWord_report (s := { s with moves := rest }) ((step_of_issue hmoves).symm.trans h)

/-- Unless it is performed, an issued word writes neither `MEM` nor `RES` (R179, R180). -/
theorem issueWord_unperformed {w : Word} {s t : State} (h : issueWord w s = .next t) (hreport : t.report ≠ .performed) :
    t.mem = s.mem ∧ t.resets = s.resets ∧ t.res = s.res := by
  rcases issueWord_cases h with ⟨_, rfl⟩ | ⟨c, w', _, rfl⟩ | ⟨i, _, _, rfl⟩
  · exact ⟨rfl, rfl, rfl⟩
  · exact ⟨rfl, rfl, rfl⟩
  · exact absurd rfl hreport

/-- Settles O14: the decoder's tests and then the prologue's are those on the numbers of the fields. -/
theorem firstViolationIsReported : Obligations.FirstViolationIsReported := by
  intro s w rest hmoves
  obtain ⟨t, ht⟩ := issueWord_total w { s with moves := rest }
  have hstep : step s = .next t := (step_of_issue hmoves).trans ht
  refine ⟨t, hstep, (issueWord_counts ht).1, step_report hmoves hstep, fun hreport => ?_⟩
  obtain ⟨hmem, hresets, hres⟩ := issueWord_unperformed ht hreport
  exact ⟨hmem, fun a => readByte_congr hmem hresets a, hres⟩

/-- Settles O59: the report is a function of the word, `STATUS.F` and the parameters. -/
theorem reportIndependentOfData : Obligations.ReportIndependentOfData := by
  intro s s' t t' w rest rest' hmoves hmoves' hcfg hflag hstep hstep'
  rw [step_report hmoves hstep, step_report hmoves' hstep', hflag, hcfg]

/-- Settles O15: of the three ends of a command only the performed one is reported so, and it is the end of a ready
command. -/
theorem performedExactlyWhenReady : Obligations.PerformedExactlyWhenReady := by
  intro s i
  obtain ⟨t, ht⟩ := command_total (encode i) (commandPath i) (commandFootprint i) (performOf i) s
  rw [← exec_eq_command] at ht
  refine ⟨t, ht, ?_⟩
  rcases exec_cases ht with ⟨hflag, rfl⟩ | ⟨c, _, hready, rfl⟩ | ⟨hready, rfl⟩
  · simp [Ready, hflag]
  · simp [hready]
  · simp [hready]

end Sys2Proof.Machine
end

section
/-! PROOFS. What a command leaves unchanged and what its result depends on (`20_memory.md` R34, R45, R46, `10_state.md`
R21, `60_exceptions.md` R179, R180), from the one shape of every performed command: it stores its schedule at its
destination, or writes `RES`. -/

namespace Sys2Proof.Machine

/-! ## Frames -/

/-- What a command with footprints leaves unchanged, however it ends. -/
theorem exec_frame {i : Instr} {f : Footprint} (hf : commandFootprint i = some f) {s t : State}
    (h : exec i s = .next t) :
    t.res = s.res ∧ SameHostSide s t ∧ t.resets = s.resets ∧ SameOutside f.dst f.dlen s t
      ∧ ((∃ c, t.report = .faulted c) ∨ (t.status = s.status ∧ t.fcmd = s.fcmd)) := by
  rcases exec_cases h with ⟨_, rfl⟩ | ⟨c, _, _, rfl⟩ | ⟨_, rfl⟩
  · exact ⟨rfl, ⟨rfl, rfl, rfl⟩, rfl, fun _ _ => rfl, .inr ⟨rfl, rfl⟩⟩
  · exact ⟨rfl, ⟨rfl, rfl, rfl⟩, rfl, fun _ _ => rfl, .inl ⟨c, rfl⟩⟩
  · obtain ⟨hcfg, hstatus, hfcmd, hmoves, hobs, _, hresets⟩ := performOf_frame i s
    exact ⟨performOf_res hf s, ⟨hcfg, hmoves, hobs⟩, hresets, fun _ ha => readByte_performOf_outside hf s ha,
      .inr ⟨hstatus, hfcmd⟩⟩

/-- Settles O26, by the frame of every command with footprints. -/
theorem expandFrame : Obligations.ExpandFrame := fun _ _ dst src _ =>
  ⟨exec_frame (f := expandFootprint .k128 dst src) rfl, exec_frame (f := expandFootprint .k192 dst src) rfl,
    exec_frame (f := expandFootprint .k256 dst src) rfl⟩

/-- Settles O28, by the frame of every command with footprints. -/
theorem todecFrame : Obligations.TodecFrame := fun _ _ dst src =>
  ⟨exec_frame (f := todecFootprint .k128 dst src) rfl, exec_frame (f := todecFootprint .k192 dst src) rfl,
    exec_frame (f := todecFootprint .k256 dst src) rfl⟩

/-- A command without path and footprints takes no fault: refused or performed, it leaves all but `RES`. -/
theorem exec_frame_of_no_operands {i : Instr} (hpath : commandPath i = none) (hf : commandFootprint i = none)
    {s t : State} (h : exec i s = .next t) :
    t.mem = s.mem ∧ SameMemory s t ∧ t.status = s.status ∧ t.fcmd = s.fcmd ∧ SameScratch s t ∧ SameHostSide s t := by
  rcases exec_cases h with ⟨_, rfl⟩ | ⟨c, hflag, hready, rfl⟩ | ⟨_, rfl⟩
  · exact ⟨rfl, fun _ => rfl, rfl, rfl, ⟨rfl, rfl, rfl⟩, ⟨rfl, rfl, rfl⟩⟩
  · exact absurd (ready_of_no_operands hflag hpath hf) hready
  · obtain ⟨v, hv⟩ := performOf_accessor hf s
    rw [hv]
    exact ⟨rfl, fun _ => rfl, rfl, rfl, ⟨rfl, rfl, rfl⟩, ⟨rfl, rfl, rfl⟩⟩

/-- Settles O32: none of the six has a path or footprints. -/
theorem accessorFrame : Obligations.AccessorFrame := by
  intro s t i hi h
  rcases hi with rfl | rfl | rfl | rfl | rfl | rfl <;> exact exec_frame_of_no_operands rfl rfl h

/-- Settles O57: a command that stores is ready, so its destination holds no byte of its source. -/
theorem sourceFootprintIsReadOnly : Obligations.SourceFootprintIsReadOnly := by
  intro s t i f a hf h ha
  rcases exec_cases h with ⟨_, rfl⟩ | ⟨c, _, _, rfl⟩ | ⟨⟨_, _, _, hdisj⟩, rfl⟩
  · rfl
  · rfl
  · exact readByte_performOf_outside hf s (hdisj f hf a ha)

/-! ## The bytes at the destination -/

theorem readByte_eq_byte_load128 (s : State) (a : Nat) (j : Fin 16) :
    State.readByte s (a + j.val) = V128.byte (load128 s a) j :=
  (byte_ofFn (fun i => State.readByte s (a + i.val)) j).symm

/-- Each byte of the destination footprint is a byte of the schedule. -/
theorem readByte_performOf_inside {i : Instr} {f : Footprint} (hf : commandFootprint i = some f) (s : State) {a : Nat}
    (ha : InBytes f.dst f.dlen a) :
    State.readByte (performOf i s) a
      = V128.byte (roundKey (scheduleOf i s) ((a - f.dst) / 16)) ⟨(a - f.dst) % 16, Nat.mod_lt _ (by omega)⟩ := by
  have hlen := scheduleOf_length hf s
  obtain ⟨hlo, hhi⟩ := ha
  rw [← load128_performOf hf s (n := (a - f.dst) / 16) (by omega), ← readByte_eq_byte_load128]
  congr 1
  dsimp only
  omega

/-- Settles O58: the schedule is a function of the source bytes, and the destination bytes are the schedule's. -/
theorem resultDependsOnTheSourceOnly : Obligations.ResultDependsOnTheSourceOnly := by
  intro s s' t t' i f hf hready hready' h h' hsrc a ha
  cases (exec_of_ready hready).symm.trans h
  cases (exec_of_ready hready').symm.trans h'
  exact (readByte_performOf_inside hf s ha).trans
    (scheduleOf_of_agree hf hsrc ▸ (readByte_performOf_inside hf s' ha).symm)

/-! ## Issuing a command again (R46) -/

theorem ready_congr {s t : State} {i : Instr} (hcfg : t.cfg = s.cfg) (hstatus : t.status = s.status)
    (h : Ready s i) : Ready t i := by
  obtain ⟨hflag, hpath, hfits, hdisj⟩ := h
  exact ⟨(flagF_congr hstatus).trans hflag, hcfg ▸ hpath, hcfg ▸ hfits, hdisj⟩

/-- Performing a command leaves ready what was ready. -/
theorem ready_of_performed {s : State} {i j : Instr} (h : Ready s j) :
    Ready (consume .performed (performOf i s)) j := by
  obtain ⟨hcfg, hstatus, _⟩ := performOf_frame i s
  exact ready_congr hcfg hstatus h

theorem performOf_res_again {i : Instr} (s t : State) (h : t.res = (performOf i s).res) :
    (performOf i t).res = t.res := by
  cases hf : commandFootprint i with
  | some f => exact performOf_res hf t
  | none =>
    obtain ⟨v, _, hset⟩ := performOf_eq_setRes hf
    rw [h, hset, hset, setRes_res, setRes_res]

/-- Settles O60: the first run leaves the source bytes, so the second stores the same schedule; an accessor writes the
constant of its size. -/
theorem commandsAreIdempotent : Obligations.CommandsAreIdempotent := by
  intro s t i hready h
  cases (exec_of_ready hready).symm.trans h
  have hready' : Ready (consume .performed (performOf i s)) i := ready_of_performed hready
  refine ⟨_, exec_of_ready hready', rfl, fun a => ?_, performOf_res_again s _ rfl⟩
  cases hf : commandFootprint i with
  | none =>
    obtain ⟨v, hv⟩ := performOf_accessor hf (consume .performed (performOf i s))
    rw [hv]
    rfl
  | some f =>
    by_cases ha : InBytes f.dst f.dlen a
    · exact (resultDependsOnTheSourceOnly _ _ _ _ i f hf hready' hready (exec_of_ready hready') (exec_of_ready hready)
        (fun b hb => sourceFootprintIsReadOnly _ _ i f b hf (exec_of_ready hready) hb) a ha)
    · exact readByte_performOf_outside hf _ ha

end Sys2Proof.Machine
end

section
/-! PROOFS. The datapath of the key schedule (`40_round_primitives.md` R71, R76, R77, R87, R90, R94 to R96): the laws of
the field and of the column maps, and the substitution steps, which are the same words on both paths. -/

namespace Sys2Proof.Machine

/-- Settles O35: the laws of the field, and each byte's inverse from its entry of `SBOX`. -/
theorem fieldLaws : Obligations.FieldLaws :=
  ⟨gmul_comm, gmul_assoc, gmul_xor_right, fun a => ⟨gmul_one a, gmul_zero a⟩,
    fun _ ha => ⟨_, gmul_sboxAffineInv_sbox ha, fun _ hc => gmul_inverse_unique hc (gmul_sboxAffineInv_sbox ha)⟩⟩

theorem mixColumn_xor (a b : KeyWord) : mixColumn (KeyWord.xor a b) = KeyWord.xor (mixColumn a) (mixColumn b) := by
  simp only [mixColumn, KeyWord.xor, gmul_xor_left, KeyWord.mk.injEq]
  refine ⟨?_, ?_, ?_, ?_⟩ <;> ac_rfl

theorem mixColumns_xor (u v : V128) : mixColumns (V128.xor u v) = V128.xor (mixColumns u) (mixColumns v) := by
  simp only [mixColumns, V128.mapWords, V128.xor, mixColumn_xor]

/-- Settles O36: the two matrices multiply to the identity, and `gmul` is additive. -/
theorem invMixColumnsInverts : Obligations.InvMixColumnsInverts :=
  ⟨invMixColumns_mixColumns, mixColumns_xor, invMixColumns_xor⟩

/-! ## Exclusive-or of words (R7) -/

theorem KeyWord.xor_zero (a : KeyWord) : KeyWord.xor a KeyWord.zero = a := by
  simp [KeyWord.xor, KeyWord.zero]

theorem KeyWord.zero_xor (a : KeyWord) : KeyWord.xor KeyWord.zero a = a := by
  simp [KeyWord.xor, KeyWord.zero]

theorem KeyWord.xor_comm (a b : KeyWord) : KeyWord.xor a b = KeyWord.xor b a := by
  simp only [KeyWord.xor, BitVec.xor_comm]

theorem KeyWord.xor_assoc (a b c : KeyWord) : KeyWord.xor (KeyWord.xor a b) c = KeyWord.xor a (KeyWord.xor b c) := by
  simp only [KeyWord.xor, BitVec.xor_assoc]

theorem KeyWord.xor_left_comm (a b c : KeyWord) :
    KeyWord.xor a (KeyWord.xor b c) = KeyWord.xor b (KeyWord.xor a c) := by
  rw [← KeyWord.xor_assoc, KeyWord.xor_comm a b, KeyWord.xor_assoc]

theorem V128.xor_zero (v : V128) : V128.xor v V128.zero = v := by
  simp only [V128.xor, V128.zero, KeyWord.xor_zero]

theorem word_xor (u v : V128) (j : Fin 4) :
    V128.word (V128.xor u v) j = KeyWord.xor (V128.word u j) (V128.word v j) := by
  fin_cases j <;> rfl

theorem word_ofWords (f : Fin 4 → KeyWord) (j : Fin 4) : V128.word (V128.ofWords f) j = f j := by
  fin_cases j <;> rfl

theorem V128.ext_word {u v : V128} (h : ∀ j, V128.word u j = V128.word v j) : u = v := by
  calc u = V128.ofWords (V128.word u) := rfl
    _ = V128.ofWords (V128.word v) := congrArg V128.ofWords (funext h)
    _ = v := rfl

/-! ## The last round of four equal columns (R96) -/

theorem fwdLast_of_equal_columns (x : KeyWord) :
    fwdLast (V128.ofWords fun _ => x) V128.zero = subBytes (V128.ofWords fun _ => x) :=
  calc fwdLast (V128.ofWords fun _ => x) V128.zero
    _ = shiftRows (V128.ofWords fun _ => subWord x) := V128.xor_zero _
    _ = V128.ofWords fun _ => subWord x := shiftRows_ofWords_const _

/-- Settles O38: `ShiftRows` leaves four equal columns alone; the counter-example by evaluation. -/
theorem lastRoundOfEqualColumnsIsSubBytes : Obligations.LastRoundOfEqualColumnsIsSubBytes :=
  ⟨fwdLast_of_equal_columns, by decide, by decide⟩

/-! ## SUBROT and SUBONLY on both paths (R94, R95) -/

theorem word_subrot (prev : V128) (rc : Byte) (p : Path) (j : Fin 4) :
    V128.word (subrot prev rc p) j = KeyWord.xor (subWord (rotWord prev.w3)) (rcWord rc) := by
  cases p with
  | assisted => exact word_ofWords _ j
  | emulated =>
    have hperm : perm prev rotMask = V128.ofWords fun _ => rotWord prev.w3 := rfl
    rw [subrot, word_xor, hperm, fwdLast_of_equal_columns, bcastRc, word_ofWords]
    exact congrArg (KeyWord.xor · _) (word_ofWords (fun _ => subWord (rotWord prev.w3)) j)

theorem word_subonly (prev : V128) (p : Path) (j : Fin 4) : V128.word (subonly prev p) j = subWord prev.w3 := by
  cases p with
  | assisted => exact word_ofWords _ j
  | emulated =>
    have hperm : perm prev norotMask = V128.ofWords fun _ => prev.w3 := rfl
    rw [subonly, hperm, fwdLast_of_equal_columns]
    exact word_ofWords (fun _ => subWord prev.w3) j

/-- Settles O39: one path broadcasts the word of the assist, the other substitutes four equal columns. -/
theorem substitutionStepsOnBothPaths : Obligations.SubstitutionStepsOnBothPaths :=
  fun prev rc p j => ⟨word_subrot prev rc p j, word_subonly prev p j⟩

theorem subrot_path (prev : V128) (rc : Byte) (p q : Path) : subrot prev rc p = subrot prev rc q :=
  V128.ext_word fun j => (word_subrot prev rc p j).trans (word_subrot prev rc q j).symm

theorem subonly_path (prev : V128) (p q : Path) : subonly prev p = subonly prev q :=
  V128.ext_word fun j => (word_subonly prev p j).trans (word_subonly prev q j).symm

/-- Settles O40, a constant at a time. -/
theorem rconDoubles : Obligations.RconDoubles := by
  refine ⟨rfl, fun n h1 h9 => ?_⟩
  interval_cases n <;> rfl

/-! ## RIPPLE (R90) -/

theorem ripple_eq (v : V128) :
    ripple v = ⟨v.w0, KeyWord.xor v.w0 v.w1, KeyWord.xor (KeyWord.xor v.w0 v.w1) v.w2,
      KeyWord.xor (KeyWord.xor (KeyWord.xor v.w0 v.w1) v.w2) v.w3⟩ := by
  simp [ripple, V128.xor, sllw, V128.ofWords, V128.word, KeyWord.zero_xor, KeyWord.xor_comm, KeyWord.xor_left_comm]

/-- `t ^ SLLW(t, 1)`: each word with the one before it. -/
def shiftXor (v : V128) : V128 := V128.xor v (sllw v 1)

theorem shiftXor_eq (v : V128) :
    shiftXor v = ⟨v.w0, KeyWord.xor v.w1 v.w0, KeyWord.xor v.w2 v.w1, KeyWord.xor v.w3 v.w2⟩ :=
  congrArg (V128.mk · _ _ _) (KeyWord.xor_zero v.w0)

theorem KeyWord.xor_cancel_middle (a b c : KeyWord) :
    KeyWord.xor (KeyWord.xor a b) (KeyWord.xor b c) = KeyWord.xor a c := by
  rw [← KeyWord.xor_assoc, KeyWord.xor_xor_cancel_right]

theorem shiftXor_shiftXor (v : V128) :
    shiftXor (shiftXor v) = ⟨v.w0, v.w1, KeyWord.xor v.w2 v.w0, KeyWord.xor v.w3 v.w1⟩ := by
  simp only [shiftXor_eq, KeyWord.xor_xor_cancel_right, KeyWord.xor_cancel_middle]

theorem shiftXor_thrice (v : V128) : shiftXor (shiftXor (shiftXor v)) = ripple v := by
  rw [shiftXor_shiftXor, shiftXor_eq, ripple_eq]
  simp only [KeyWord.xor_comm, KeyWord.xor_left_comm]

/-- Settles O41, word by word; of three single shifts the first two make a shift by two. -/
theorem rippleIsThePrefixXor : Obligations.RippleIsThePrefixXor := fun v => ⟨ripple_eq v, shiftXor_thrice v⟩

end Sys2Proof.Machine
end

section
/-! PROOFS. The word recurrences of EXPAND.128 and EXPAND.256 (`41_expand128.md` R113, `43_expand256.md` R140): a round
key that is a rippled earlier one against one word four times is, word by word, that word and then its own last word
against the earlier round key's. -/

namespace Sys2Proof.Machine

/-! ## Four words of a recurrence from one RIPPLE -/

theorem word_xor_ripple {v x : V128} {c : KeyWord} (hx : ∀ j, V128.word x j = c) :
    V128.word (V128.xor (ripple v) x) 0 = KeyWord.xor (V128.word v 0) c
      ∧ ∀ (j : Nat) (hj : j < 3), V128.word (V128.xor (ripple v) x) ⟨j + 1, by omega⟩
          = KeyWord.xor (V128.word v ⟨j + 1, by omega⟩) (V128.word (V128.xor (ripple v) x) ⟨j, by omega⟩) := by
  refine ⟨?_, fun j hj => ?_⟩
  · rw [word_xor, hx, ripple_eq]
    rfl
  · rw [word_xor, word_xor, hx, hx, ripple_eq]
    interval_cases j <;> simp only [V128.word, KeyWord.xor_comm, KeyWord.xor_left_comm]

/-- The same in memory, for a word `n` of a round key made from the one `d` round keys before it. -/
theorem wordAt_of_ripple {t : State} {dst n b d : Nat} {x : V128} {c : KeyWord} (hd : n / 4 = b + d)
    (hload : load128 t (dst + 16 * (n / 4)) = V128.xor (ripple (load128 t (dst + 16 * b))) x)
    (hx : ∀ j, V128.word x j = c) :
    wordAt t (dst + 4 * n)
      = if n % 4 = 0 then KeyWord.xor (wordAt t (dst + 4 * (n - 4 * d))) c
        else KeyWord.xor (wordAt t (dst + 4 * (n - 4 * d))) (wordAt t (dst + 4 * (n - 1))) := by
  obtain ⟨first, later⟩ := word_xor_ripple (v := load128 t (dst + 16 * b)) hx
  rw [← hload] at first later
  by_cases hmod : n % 4 = 0
  · rw [if_pos hmod, wordAt_eq_load128 t dst n (n / 4) 0 (by omega) (by omega),
      wordAt_eq_load128 t dst (n - 4 * d) b 0 (by omega) (by omega)]
    exact first
  · obtain ⟨j, hj⟩ : ∃ j, n % 4 = j + 1 := Nat.exists_eq_succ_of_ne_zero hmod
    rw [if_neg hmod, wordAt_eq_load128 t dst n (n / 4) (j + 1) (by omega) (by omega),
      wordAt_eq_load128 t dst (n - 4 * d) b (j + 1) (by omega) (by omega),
      wordAt_eq_load128 t dst (n - 1) (n / 4) j (by omega) (by omega)]
    exact later j (by omega)

/-- The last word of a round key. -/
theorem load128_w3 (t : State) (dst : Nat) {n i : Nat} (h : n = 4 * i + 3) :
    (load128 t (dst + 16 * i)).w3 = wordAt t (dst + 4 * n) :=
  (wordAt_eq_load128 t dst n i 3 h (by omega)).symm

/-- The words of a round key are those of the vector it was loaded from. -/
theorem wordAt_of_load128 {s t : State} {a b : Nat} (h : load128 t a = load128 s b) {j : Nat} (hj : j < 4) :
    wordAt t (a + 4 * j) = wordAt s (b + 4 * j) := by
  have hword := fun (s : State) (a : Nat) => wordAt_eq_load128 s a j 0 j (by omega) hj
  simp only [Nat.mul_zero, Nat.add_zero] at hword
  rw [hword, hword, h]

/-! ## EXPAND.128 (R113) -/

/-- Settles O18: the first word of a round key has the substituted one, the other three have their neighbour. -/
theorem expand128MeetsTheRecurrence : Obligations.Expand128MeetsTheRecurrence := by
  intro s dst src p hready
  obtain ⟨_, _, run⟩ := expand128RunsThePseudocode s dst src p
  obtain ⟨t, hexec, _, _, hkey, hround⟩ := run hready
  refine ⟨t, hexec, fun j hj => wordAt_of_load128 hkey hj, fun n h4 h43 => ?_⟩
  have hword := wordAt_of_ripple (d := 1) (by omega) (hround (n / 4) (by omega) (by omega)) (word_subrot _ _ p)
  by_cases hmod : n % 4 = 0
  · rw [if_pos hmod, load128_w3 t _ (n := n - 1) (by omega)] at hword
    rwa [if_pos hmod]
  · rw [if_neg hmod] at hword
    rwa [if_neg hmod]

/-! ## EXPAND.256 (R140) -/

/-- Settles O24: an even round key begins with the substituted and rotated word, an odd one with the substituted word;
the other three words have their neighbour. -/
theorem expand256MeetsTheRecurrence : Obligations.Expand256MeetsTheRecurrence := by
  intro s dst src p hready
  obtain ⟨_, _, run⟩ := expand256RunsThePseudocode s dst src p
  obtain ⟨t, hexec, _, _, hkey0, hkey1, hround⟩ := run hready
  refine ⟨t, hexec, fun j hj => ?_, fun n h8 h59 => ?_⟩
  · by_cases h4 : j < 4
    · exact wordAt_of_load128 hkey0 h4
    · have h := wordAt_of_load128 hkey1 (j := j - 4) (by omega)
      rwa [show dst.toNat + 16 + 4 * (j - 4) = dst.toNat + 4 * j by omega,
        show src.toNat + 16 + 4 * (j - 4) = src.toNat + 4 * j by omega] at h
  · obtain ⟨even, odd⟩ := hround (n / 8) (by omega) (by omega)
    by_cases hhalf : n % 8 < 4
    · rw [show 2 * (n / 8) = n / 4 by omega] at even
      have hword := wordAt_of_ripple (d := 2) (by omega) even (word_subrot _ _ p)
      by_cases hmod : n % 8 = 0
      · rw [if_pos (by omega), load128_w3 t _ (n := n - 1) (by omega)] at hword
        rwa [if_pos hmod]
      · rw [if_neg (by omega)] at hword
        rwa [if_neg hmod, if_neg (by omega)]
    · have hodd := odd (by omega)
      rw [show 2 * (n / 8) + 1 = n / 4 by omega] at hodd
      have hword := wordAt_of_ripple (d := 2) (by omega) hodd (word_subonly _ p)
      by_cases hmod : n % 8 = 4
      · rw [if_pos (by omega), load128_w3 t _ (n := n - 1) (by omega)] at hword
        rwa [if_neg (by omega), if_pos hmod]
      · rw [if_neg (by omega)] at hword
        rwa [if_neg (by omega), if_neg hmod]

end Sys2Proof.Machine
end

section
/-! PROOFS. EXPAND.192 on both paths (`42_expand192.md` R121 to R128). The pairs of the assisted path, read as halves,
meet the steps of the emulated path, so both paths make the same 26 halves (R127); the word recurrence (R126) is that of
the halves. -/

namespace Sys2Proof.Machine

/-! ## One step of R125, word by word -/

theorem lo_subrot (prev : V128) (rc : Byte) (p : Path) :
    V128.lo (subrot prev rc p)
      = ⟨KeyWord.xor (subWord (rotWord prev.w3)) (rcWord rc), KeyWord.xor (subWord (rotWord prev.w3)) (rcWord rc)⟩ :=
  congrArg₂ Half.mk (word_subrot prev rc p 0) (word_subrot prev rc p 1)

/-- The first half of a step: its first word takes the substituted one, its second word has its neighbour. -/
theorem words_of_first_half {new old last : Half} {rc : Byte}
    (h : new = Half.xor (hrip old)
      (V128.lo (V128.xor (fwdLast (perm (V128.ofHalves last last) rotMask) V128.zero) (bcastRc rc)))) :
    new.w0 = KeyWord.xor old.w0 (KeyWord.xor (subWord (rotWord last.w1)) (rcWord rc))
      ∧ new.w1 = KeyWord.xor old.w1 new.w0 := by
  have hlo := lo_subrot (V128.ofHalves last last) rc .emulated
  rw [subrot] at hlo
  rw [hlo] at h
  subst h
  exact ⟨rfl, by simp only [Half.xor, hrip, V128.ofHalves, KeyWord.xor_comm, KeyWord.xor_left_comm]⟩

/-- The later halves of a step: both words have their neighbour. -/
theorem words_of_later_half {new old before : Half} (h : new = hrip (Half.xor old (carry before))) :
    new.w0 = KeyWord.xor old.w0 before.w1 ∧ new.w1 = KeyWord.xor old.w1 new.w0 := by
  subst h
  exact ⟨rfl, by simp only [Half.xor, hrip, carry, KeyWord.xor_comm, KeyWord.zero_xor]⟩

/-- The words of half `q`, made in step `i + 1`. The last step makes two halves. -/
theorem words_of_halvesStep {h : Nat → Half} {rc : Byte} {count i q : Nat} (hstep : HalvesStep h rc count i)
    (hq : q / 3 = i + 1) (hlast : i + 1 < count ∨ q % 3 < 2) :
    (h q).w0
        = KeyWord.xor (h (q - 3)).w0
            (if q % 3 = 0 then KeyWord.xor (subWord (rotWord (h (q - 1)).w1)) (rcWord rc) else (h (q - 1)).w1)
      ∧ (h q).w1 = KeyWord.xor (h (q - 3)).w1 (h q).w0 := by
  obtain ⟨first, second, third⟩ := hstep
  obtain rfl | rfl | rfl : q = 3 * i + 3 ∨ q = 3 * i + 4 ∨ q = 3 * i + 5 := by omega
  · rw [if_pos (by omega)]
    exact words_of_first_half first
  · rw [if_neg (by omega)]
    exact words_of_later_half second
  · rw [if_neg (by omega)]
    exact words_of_later_half (third (by omega))

/-- Word `n` of a sequence of halves. -/
def wordOfHalves (h : Nat → Half) (n : Nat) : KeyWord := if n % 2 = 0 then (h (n / 2)).w0 else (h (n / 2)).w1

section
variable (h : Nat → Half) {n q : Nat}

theorem wordOfHalves_even (hn : n = 2 * q) : wordOfHalves h n = (h q).w0 := by
  rw [wordOfHalves, if_pos (by omega), show n / 2 = q by omega]

theorem wordOfHalves_odd (hn : n = 2 * q + 1) : wordOfHalves h n = (h q).w1 := by
  rw [wordOfHalves, if_neg (by omega), show n / 2 = q by omega]

end

/-- R126 for the words of step `i + 1`. The last step makes four words. -/
theorem wordOfHalves_of_halvesStep {h : Nat → Half} {rc : Byte} {count i n : Nat} (hstep : HalvesStep h rc count i)
    (hn : n / 6 = i + 1) (hlast : i + 1 < count ∨ n % 6 < 4) :
    wordOfHalves h n
      = if n % 6 = 0 then
          KeyWord.xor (wordOfHalves h (n - 6))
            (KeyWord.xor (subWord (rotWord (wordOfHalves h (n - 1)))) (rcWord rc))
        else KeyWord.xor (wordOfHalves h (n - 6)) (wordOfHalves h (n - 1)) := by
  obtain ⟨even, odd⟩ := words_of_halvesStep hstep (q := n / 2) (by omega) (by omega)
  obtain hmod | hmod := Nat.mod_two_eq_zero_or_one n
  · rw [wordOfHalves_even h (n := n) (q := n / 2) (by omega),
      wordOfHalves_even h (n := n - 6) (q := n / 2 - 3) (by omega),
      wordOfHalves_odd h (n := n - 1) (q := n / 2 - 1) (by omega), even]
    by_cases hfirst : n % 6 = 0
    · rw [if_pos hfirst, if_pos (by omega)]
    · rw [if_neg hfirst, if_neg (by omega)]
  · rw [if_neg (by omega), wordOfHalves_odd h (n := n) (q := n / 2) (by omega),
      wordOfHalves_odd h (n := n - 6) (q := n / 2 - 3) (by omega),
      wordOfHalves_even h (n := n - 1) (q := n / 2) (by omega),
      odd]

/-! ## The pairs of the assisted path as halves (R127) -/

/-- The assist step on halves is a step of R125. -/
theorem halves_a192 (a b : V128) (rc : Byte) :
    V128.lo (a192 a b rc).1
        = Half.xor (hrip (V128.lo a))
            (V128.lo (V128.xor (fwdLast (perm (V128.ofHalves (V128.lo b) (V128.lo b)) rotMask) V128.zero) (bcastRc rc)))
      ∧ V128.hi (a192 a b rc).1 = hrip (Half.xor (V128.hi a) (carry (V128.lo (a192 a b rc).1)))
      ∧ V128.lo (a192 a b rc).2 = hrip (Half.xor (V128.lo b) (carry (V128.hi (a192 a b rc).1))) := by
  have hlo := lo_subrot (V128.ofHalves (V128.lo b) (V128.lo b)) rc .emulated
  rw [subrot] at hlo
  refine ⟨?_, ?_, ?_⟩
  · rw [hlo, a192, ripple_eq]
    rfl
  · simp [a192, ripple_eq, V128.hi, V128.lo, V128.xor, hrip, carry, Half.xor, bcastw, V128.ofWords, KeyWord.zero_xor,
      KeyWord.xor_assoc, KeyWord.xor_comm, KeyWord.xor_left_comm]
  · simp [a192, V128.hi, V128.lo, V128.xor, hrip, carry, Half.xor, sllw, V128.ofWords, V128.word, bcastw,
      KeyWord.zero_xor, KeyWord.xor_comm, KeyWord.xor_left_comm]

/-- Half `q` of the pairs: `A_n` has two and the low half of `B_n` is the third. -/
def pairHalf192 (a0 b0 : V128) (q : Nat) : Half :=
  if q % 3 = 0 then V128.lo (pair192 a0 b0 (q / 3)).1
  else if q % 3 = 1 then V128.hi (pair192 a0 b0 (q / 3)).1
  else V128.lo (pair192 a0 b0 (q / 3)).2

section
variable (a0 b0 : V128) {q n : Nat}

theorem pairHalf192_first (h : q = 3 * n) : pairHalf192 a0 b0 q = V128.lo (pair192 a0 b0 n).1 := by
  rw [pairHalf192, if_pos (by omega), show q / 3 = n by omega]

theorem pairHalf192_second (h : q = 3 * n + 1) : pairHalf192 a0 b0 q = V128.hi (pair192 a0 b0 n).1 := by
  rw [pairHalf192, if_neg (by omega), if_pos (by omega), show q / 3 = n by omega]

theorem pairHalf192_third (h : q = 3 * n + 2) : pairHalf192 a0 b0 q = V128.lo (pair192 a0 b0 n).2 := by
  rw [pairHalf192, if_neg (by omega), if_neg (by omega), show q / 3 = n by omega]

theorem halvesStep_pairHalf192 {i : Nat} (h : i < 8) : HalvesStep (pairHalf192 a0 b0) (rcon (i + 1)) 8 i := by
  obtain ⟨first, second, third⟩ := halves_a192 (pair192 a0 b0 i).1 (pair192 a0 b0 i).2 (rcon (i + 1))
  rw [← pair192_succ a0 b0 h] at first second third
  unfold HalvesStep
  rw [pairHalf192_first a0 b0 (n := i) rfl, pairHalf192_second a0 b0 (n := i) rfl, pairHalf192_third a0 b0 (n := i) rfl,
    pairHalf192_first a0 b0 (n := i + 1) (by omega), pairHalf192_second a0 b0 (n := i + 1) (by omega),
    pairHalf192_third a0 b0 (n := i + 1) (by omega)]
  exact ⟨first, second, fun _ => third⟩

/-- The slots of R123 are pairs of these halves. -/
theorem roundKey_expand192_assisted_eq_halves {i : Nat} (h : i < 13) :
    roundKey (expand192 .assisted a0 b0) i
      = V128.ofHalves (pairHalf192 a0 b0 (2 * i)) (pairHalf192 a0 b0 (2 * i + 1)) := by
  obtain rfl | ⟨m, hm, hi⟩ : i = 0 ∨ ∃ m, m < 4 ∧ (i = 3 * m + 1 ∨ i = 3 * m + 2 ∨ i = 3 * m + 3) := by
    by_cases h0 : i = 0
    · exact .inl h0
    · exact .inr ⟨(i - 1) / 3, by omega, by omega⟩
  · rfl
  · obtain ⟨slot1, slot2, slot3⟩ := roundKey_expand192_assisted a0 b0 hm
    rcases hi with rfl | rfl | rfl
    · rw [slot1, pairHalf192_third a0 b0 (n := 2 * m) (by omega), pairHalf192_first a0 b0 (n := 2 * m + 1) (by omega)]
      rfl
    · rw [slot2, pairHalf192_second a0 b0 (n := 2 * m + 1) (by omega),
        pairHalf192_third a0 b0 (n := 2 * m + 1) (by omega)]
      rfl
    · rw [slot3, pairHalf192_first a0 b0 (n := 2 * m + 2) (by omega),
        pairHalf192_second a0 b0 (n := 2 * m + 2) (by omega)]
      rfl

end

/-- The steps of R125 fix the halves from the first three on. -/
theorem halves_unique {g h : Nat → Half} {rc : Nat → Byte} {count : Nat}
    (hg : ∀ i, i < count → HalvesStep g (rc i) count i) (hh : ∀ i, i < count → HalvesStep h (rc i) count i)
    (start : ∀ q, q < 3 → g q = h q) (q : Nat) (hq : q < 3 * count + 2) : g q = h q := by
  induction q using Nat.strong_induction_on with
  | _ q ih =>
    by_cases h3 : q < 3
    · exact start q h3
    · obtain ⟨i, hi⟩ : ∃ i, q = 3 * i + 3 ∨ q = 3 * i + 4 ∨ q = 3 * i + 5 := ⟨q / 3 - 1, by omega⟩
      obtain ⟨gfirst, gsecond, gthird⟩ := hg i (by omega)
      obtain ⟨hfirst, hsecond, hthird⟩ := hh i (by omega)
      rcases hi with rfl | rfl | rfl
      · rw [gfirst, hfirst, ih (3 * i) (by omega) (by omega), ih (3 * i + 2) (by omega) (by omega)]
      · rw [gsecond, hsecond, ih (3 * i + 1) (by omega) (by omega), ih (3 * i + 3) (by omega) (by omega)]
      · rw [gthird (by omega), hthird (by omega), ih (3 * i + 2) (by omega) (by omega),
          ih (3 * i + 4) (by omega) (by omega)]

theorem pairHalf192_eq_halfOf (a0 b0 : V128) {q : Nat} (h : q < 26) :
    pairHalf192 a0 b0 q = halfOf (keyHalves192 a0 b0) q := by
  refine halves_unique (count := 8) (fun i hi => halvesStep_pairHalf192 a0 b0 hi)
    (fun i hi => halvesStep_keyHalves192 a0 b0 hi) (fun q hq => ?_) q h
  interval_cases q <;> rfl

theorem eq_of_roundKey_eq {l l' : List V128} (hlen : l.length = l'.length)
    (h : ∀ i, i < l.length → roundKey l i = roundKey l' i) : l = l' := by
  refine List.ext_getElem hlen fun i hi hi' => ?_
  simpa [roundKey, hi, hi'] using h i hi

/-- Both paths of EXPAND.192 pair the same halves (R127). -/
theorem expand192_eq_pairHalves (p : Path) (a0 b0 : V128) : expand192 p a0 b0 = pairHalves (keyHalves192 a0 b0) := by
  cases p with
  | emulated => exact expand192_emulated a0 b0
  | assisted =>
    rw [← expand192_emulated]
    refine eq_of_roundKey_eq (by rw [expand192_length, expand192_length]) fun i hi => ?_
    rw [expand192_length] at hi
    rw [roundKey_expand192_assisted_eq_halves a0 b0 hi, expand192_emulated,
      roundKey_pairHalves _ _ (by rw [keyHalves192_length]; omega), pairHalf192_eq_halfOf a0 b0 (by omega),
      pairHalf192_eq_halfOf a0 b0 (by omega)]

/-! ## What EXPAND.192 leaves in memory -/

/-- On either path the 26 halves of R125 stand at the destination. -/
theorem exec_expand192_of_ready {s : State} {dst src : Addr} {p : Path} (h : Ready s (.expand192 dst src p)) :
    ∃ t, exec (.expand192 dst src p) s = .next t ∧ Performed s t ∧ WroteOnly dst.toNat 208 s t
      ∧ ∀ q, q < 26 → halfAt t (dst.toNat + 8 * q)
          = halfOf (keyHalves192 (load128 s src.toNat) (load64z s (src.toNat + 16))) q := by
  obtain ⟨t, hexec, hperf, hframe, hload⟩ := exec_schedule_of_ready rfl h
  simp only [scheduleOf, expand192_eq_pairHalves] at hload
  refine ⟨t, hexec, hperf, hframe, fun q hq => halfAt_of_load128_eq_pairHalves (fun i hi => ?_) ?_⟩
  · rw [keyHalves192_length] at hi
    exact hload i (by omega)
  · rw [keyHalves192_length]
    omega

theorem readByte_eq_of_halfAt_eq {s t : State} {a b : Nat} (h : halfAt t a = halfAt s b) {i : Nat} (hi : i < 8) :
    State.readByte t (a + i) = State.readByte s (b + i) := by
  simp only [halfAt, wordAt, Half.mk.injEq, KeyWord.mk.injEq] at h
  obtain ⟨⟨h0, h1, h2, h3⟩, h4, h5, h6, h7⟩ := h
  interval_cases i <;> assumption

/-- Settles O19: the first three halves of the schedule are the key's. -/
theorem expand192MeetsItsContract : Obligations.Expand192MeetsItsContract := by
  intro s dst src p
  refine ⟨?_, prologueFaults s _, fun hready => ?_⟩
  · simp [encode, packWord_toNat]
  · obtain ⟨t, hexec, hperf, hframe, hhalf⟩ := exec_expand192_of_ready hready
    refine ⟨t, hexec, hperf, hframe, fun b hb => ?_⟩
    have hkey := (hhalf (b / 8) (by omega)).trans (halfOf_keyHalves192_of_key s src.toNat (by omega))
    have hbyte := readByte_eq_of_halfAt_eq hkey (Nat.mod_lt b (by omega))
    rwa [Nat.add_assoc, Nat.add_assoc, Nat.div_add_mod] at hbyte

theorem wordAt_eq_wordOfHalves {t : State} {base n : Nat} {h : Nat → Half}
    (hhalf : halfAt t (base + 8 * (n / 2)) = h (n / 2)) : wordAt t (base + 4 * n) = wordOfHalves h n := by
  obtain hmod | hmod := Nat.mod_two_eq_zero_or_one n
  · rw [wordOfHalves_even h (q := n / 2) (by omega), ← hhalf, show base + 4 * n = base + 8 * (n / 2) by omega]
    rfl
  · rw [wordOfHalves_odd h (q := n / 2) (by omega), ← hhalf, show base + 4 * n = base + 8 * (n / 2) + 4 by omega]
    rfl

/-- Settles O22: the words in memory are those of the halves, which meet the steps of R125. -/
theorem expand192MeetsTheRecurrence : Obligations.Expand192MeetsTheRecurrence := by
  intro s dst src p hready
  obtain ⟨t, hexec, _, _, hhalf⟩ := exec_expand192_of_ready hready
  have hword := fun n (hn : n < 52) => wordAt_eq_wordOfHalves (hhalf (n / 2) (by omega))
  refine ⟨t, hexec, fun j hj => ?_, fun n h6 h51 => ?_⟩
  · rw [hword j (by omega)]
    exact (wordAt_eq_wordOfHalves (halfOf_keyHalves192_of_key s src.toNat (by omega)).symm).symm
  · obtain ⟨i, hi⟩ : ∃ i, n / 6 = i + 1 := ⟨n / 6 - 1, by omega⟩
    rw [hword n (by omega), hword (n - 6) (by omega), hword (n - 1) (by omega), hi]
    exact wordOfHalves_of_halvesStep (halvesStep_keyHalves192 _ _ (i := i) (by omega)) hi (by omega)

end Sys2Proof.Machine
end

section
/-! PROOFS. Both paths, and both schedules (`41_expand128.md` R113, `42_expand192.md` R127, `43_expand256.md` R141,
`45_schedule_converter.md` R163, R164): the schedule of an EXPAND is the same list on both paths; the converter is
linear because it places round keys and `IMC` is linear; and TODEC reads the schedule that EXPAND wrote. -/

namespace Sys2Proof.Machine

/-! ## Equivalence of the paths -/

theorem expand128From_path (p q : Path) (prev : V128) (rcs : List Byte) :
    expand128From p prev rcs = expand128From q prev rcs := by
  induction rcs generalizing prev with
  | nil => rfl
  | cons rc rcs ih => rw [expand128From, expand128From, subrot_path prev rc p q, ih]

theorem typeA_path (p q : Path) (back2 back1 : V128) (rc : Byte) : typeA p back2 back1 rc = typeA q back2 back1 rc := by
  rw [typeA, typeA, subrot_path back1 rc p q]

theorem typeB_path (p q : Path) (back2 back1 : V128) : typeB p back2 back1 = typeB q back2 back1 := by
  rw [typeB, typeB, subonly_path back1 p q]

theorem expand256From_path (p q : Path) (x y : V128) (rcs : List Byte) :
    expand256From p x y rcs = expand256From q x y rcs := by
  induction rcs generalizing x y with
  | nil => rfl
  | cons rc rcs ih =>
    cases rcs with
    | nil => rw [expand256From, expand256From, typeA_path p q]
    | cons rc' rcs =>
      rw [expand256From, expand256From, typeA_path p q, typeB_path p q, ih]

/-- The schedule of an EXPAND is a function of its key bytes alone. -/
theorem scheduleOf_dispatchExpand_path (k : KeySize) (dst src : Addr) (p q : Path) (s : State) :
    scheduleOf (dispatchExpand k dst src p) s = scheduleOf (dispatchExpand k dst src q) s := by
  cases k with
  | k128 => exact congrArg (List.cons _) (expand128From_path p q _ _)
  | k192 => exact (expand192_eq_pairHalves p _ _).trans (expand192_eq_pairHalves q _ _).symm
  | k256 => exact congrArg (fun l => _ :: _ :: l) (expand256From_path p q _ _ _)

theorem performOf_mem {i : Instr} {f : Footprint} (hf : commandFootprint i = some f) (s : State) :
    (performOf i s).mem = Memory.putSchedule s.mem f.dst (scheduleOf i s) := by
  obtain ⟨x, hx⟩ := performOf_shape hf s
  rw [hx, setScratch_mem, storeSchedule_mem]

theorem performOf_resets (i : Instr) (s : State) : (performOf i s).resets = s.resets := by
  obtain ⟨_, _, _, _, _, _, hresets⟩ := performOf_frame i s
  exact hresets

/-- Settles O25: both forms store the same schedule at the same place. -/
theorem pathsWriteTheSameBytes : Obligations.PathsWriteTheSameBytes := by
  intro s k dst src hassist hemul
  have hmem : (performOf (dispatchExpand k dst src .assisted) s).mem
      = (performOf (dispatchExpand k dst src .emulated) s).mem := by
    rw [performOf_mem (commandFootprint_dispatchExpand k dst src _),
      performOf_mem (commandFootprint_dispatchExpand k dst src _),
      scheduleOf_dispatchExpand_path k dst src .assisted .emulated]
  have hresets := (performOf_resets (dispatchExpand k dst src .emulated) s).trans
    (performOf_resets (dispatchExpand k dst src .assisted) s).symm
  exact ⟨_, _, exec_of_ready hassist, exec_of_ready hemul, hmem, fun a => readByte_congr hmem.symm hresets a⟩

/-! ## The converter is linear (R163) -/

/-- R161 in closed form: the ends are copied, the interior goes through `IMC`, each from its mirror image. -/
theorem roundKey_convert (enc : List V128) (k : KeySize) {i : Nat} (h : i ≤ rounds k) :
    roundKey (convert enc (rounds k)) i
      = if i = 0 ∨ i = rounds k then roundKey enc (rounds k - i) else imc (roundKey enc (rounds k - i)) := by
  obtain rfl | rfl | ⟨h0, hn⟩ : i = 0 ∨ i = rounds k ∨ (0 < i ∧ i < rounds k) := by omega
  · rw [if_pos (.inl rfl), roundKey_convert_zero enc (rounds_even k) (rounds_pos k), Nat.sub_zero]
  · rw [if_pos (.inr rfl), roundKey_convert_last enc (rounds_even k) (rounds_pos k), Nat.sub_self]
  · rw [if_neg (by omega), roundKey_convert_interior enc (rounds_even k) (rounds_pos k) h0 hn]

theorem roundKey_zipWith_xor {a b : List V128} {i : Nat} (ha : i < a.length) (hb : i < b.length) :
    roundKey (List.zipWith V128.xor a b) i = V128.xor (roundKey a i) (roundKey b i) := by
  simp [roundKey, ha, hb]

theorem imc_xor (u v : V128) : imc (V128.xor u v) = V128.xor (imc u) (imc v) := invMixColumns_xor u v

theorem imc_zero : imc V128.zero = V128.zero := by
  decide

theorem roundKey_replicate_zero (n i : Nat) : roundKey (List.replicate n V128.zero) i = V128.zero := by
  by_cases h : i < n <;> simp [roundKey, h]

/-- Settles O29, a round key at a time. -/
theorem convertIsLinear : Obligations.ConvertIsLinear := by
  intro k
  refine ⟨fun a b ha hb => eq_of_roundKey_eq (by simp) fun i hi => ?_,
    eq_of_roundKey_eq (by simp [schedLen]) fun i hi => ?_⟩
  · rw [convert_length] at hi
    unfold schedLen at ha hb
    rw [roundKey_convert _ k (by omega), roundKey_zipWith_xor (by omega) (by omega),
      roundKey_zipWith_xor (by rw [convert_length]; omega) (by rw [convert_length]; omega),
      roundKey_convert a k (by omega), roundKey_convert b k (by omega)]
    split
    · rfl
    · exact imc_xor _ _
  · rw [convert_length] at hi
    rw [roundKey_convert _ k (by omega), roundKey_replicate_zero, roundKey_replicate_zero, imc_zero, ite_self]

/-! ## EXPAND and then TODEC (R164) -/

/-- A list of round keys that stands in memory is the schedule loaded from there. -/
theorem loadSchedule_eq {t : State} {base n : Nat} {rks : List V128} (hlen : rks.length = n)
    (h : ∀ i, i < n → load128 t (base + 16 * i) = roundKey rks i) : loadSchedule t base n = rks := by
  refine eq_of_roundKey_eq (by rw [loadSchedule_length, hlen]) fun i hi => ?_
  rw [loadSchedule_length] at hi
  rw [roundKey_loadSchedule t base n i hi, h i hi]

/-- A performed TODEC leaves its source schedule where it was and its conversion at the destination. -/
theorem exec_todecOf_loadSchedule {t : State} {k : KeySize} {dst src : Addr} (h : Ready t (todecOf k dst src)) :
    ∃ u, exec (todecOf k dst src) t = .next u ∧ Performed t u
      ∧ loadSchedule u src.toNat (schedLen k) = loadSchedule t src.toNat (schedLen k)
      ∧ loadSchedule u dst.toNat (schedLen k) = convert (loadSchedule t src.toNat (schedLen k)) (rounds k) := by
  have hf := commandFootprint_todecOf k dst src
  obtain ⟨u, hexec, hperf, _, hload⟩ := exec_schedule_of_ready hf h
  refine ⟨u, hexec, hperf, ?_, loadSchedule_eq (by rw [convert_length, schedLen]) fun i hi => ?_⟩
  · exact loadSchedule_of_agree (fun a ha => sourceFootprintIsReadOnly t u _ _ a hf hexec ha) le_rfl le_rfl
  · rw [← scheduleOf_todecOf k dst src t]
    exact hload i (by simp only [todecFootprint, schedBytes]; omega)

/-- Settles O43: TODEC is still ready after EXPAND, and the converted schedule decrypts whatever schedule it was made
from. -/
theorem expandThenTodecDecrypts : Obligations.ExpandThenTodecDecrypts := by
  intro s k dst src dst2 p hexpand htodec
  obtain ⟨t, hexec, hperf, _⟩ := exec_schedule_of_ready (commandFootprint_dispatchExpand k dst src p) hexpand
  have hready : Ready t (todecOf k dst2 dst) := by
    cases (exec_of_ready hexpand).symm.trans hexec
    exact ready_of_performed htodec
  obtain ⟨u, hexec', hperf', hsrc, hdst⟩ := exec_todecOf_loadSchedule hready
  refine ⟨t, u, hexec, hexec', hperf, hperf', hsrc, fun pt => ?_⟩
  rw [hsrc, hdst]
  exact decryptBlock_convert_encryptBlock _ (rounds_even k) (rounds_pos k) pt

end Sys2Proof.Machine
end
